-- ==== Sys2Proof/Word.lean ====
section
/-! DEFINITION. The word types of the block (spec/00_scope.md R6, R8, R9): every value is an unsigned integer. -/

namespace Sys2Proof

/-- One byte of the stream: 8 bits (R6 `BYTE`, R41). -/
abbrev Byte := BitVec 8

/-- `u64`: the accumulator buffer, an operand, a result (R6 `BUF_WIDTH`, R7 `COUNT_WIDTH`). -/
abbrev Word := BitVec 64

/-- A 72-bit command word or producer header: `op` in bits 71:64, `arg` in bits 63:0 (R63, R65). -/
abbrev PortWord := BitVec 72

end Sys2Proof
end

