-- ==== Sys2Proof/Config.lean ====
section
/-! DEFINITION. What is fixed when a block is built: the parameters the source leaves open (spec/00_scope.md R2, R7),
and the one free value of the model. No command changes any of these (R2, R31). -/

namespace Sys2Proof

/-- `MODE` (R2): the two configurations of the block. -/
inductive Mode where
  /-- a Stream Reader on an external byte source -/
  | direct
  /-- a Stream Reader on the internal sink that a producer fills -/
  | buffered
  deriving DecidableEq, Repr

/-- `PEEK_PARTIAL_EOF` (R7, R83, 92_eei_decisions.md D8): the status of a peek whose fills obtained some bytes but too
few. The spec's own choice is `unexpectedEndOfData`; D8 allows a model to take it as an argument in these two. -/
inductive PartialEof where
  | endOfData
  | unexpectedEndOfData
  deriving DecidableEq, Repr

/-- The parameters of R2 and R7. They stand in `State` as a field that no step writes, so that every statement about
every state is a statement about every configuration (assumption 1). -/
structure Config where
  /-- `MODE` (R2) -/
  mode : Mode
  /-- `SINK_CAPACITY` in bytes (R62); `none` is the spec's default, unbounded -/
  sinkCapacity : Option Nat
  /-- `PEEK_PARTIAL_EOF` (R7) -/
  partialEof : PartialEof
  deriving DecidableEq, Repr

/-- The parameter values the spec takes by default (R7), in the configuration that has every command (assumption 2). -/
def Config.standard : Config :=
  { mode := .buffered, sinkCapacity := none, partialEof := .unexpectedEndOfData }

/-- FREE VALUE (assumption 3). What `LEN` returns while the sink holds 2^64 bytes or more: R79 gives `len(sink)`, which
no `u64` holds then, and no rule says which value stands in its place. It has no body: nothing constrains it. Its
arguments are the number of responses given so far and the sink's length. -/
opaque Config.lenBeyondWord : Nat → Nat → Word

end Sys2Proof
end

