-- ==== Sys2Proof/Syntax.lean ====
section
/-! DEFINITION. The instructions of the block: one constructor per row of spec/opcode_table.json (spec/30_encoding.md
R67). Fourteen are commands of the consumer's command port, `len` is one that exists in `BUFFERED` only, and `write` is
the producer port's one transaction. -/

namespace Sys2Proof

/-- One constructor per row of the opcode map R67. An operand is the whole 64-bit `arg` (R68); its range is checked when
the command executes, never when it is decoded (R74). -/
inductive Instr where
  /-- `PEEK1 n` (R94) -/
  | peek1 (n : Word)
  /-- `READ1 n` (R95) -/
  | read1 (n : Word)
  /-- `PEEK8 n` (R96) -/
  | peek8 (n : Word)
  /-- `READ8 n` (R97) -/
  | read8 (n : Word)
  /-- `PEEK16 n` (R98) -/
  | peek16 (n : Word)
  /-- `READ16 n` (R99) -/
  | read16 (n : Word)
  /-- `PEEK32 n` (R100) -/
  | peek32 (n : Word)
  /-- `READ32 n` (R101) -/
  | read32 (n : Word)
  /-- `PEEK64 n` (R102) -/
  | peek64 (n : Word)
  /-- `READ64 n` (R103) -/
  | read64 (n : Word)
  /-- `SKIP n` (R104) -/
  | skip (n : Word)
  /-- `ALIGN` (R105) -/
  | align
  /-- `IS_ALIGNED` (R106) -/
  | isAligned
  /-- `READ_BYTES L` (R107) -/
  | readBytes (len : Word)
  /-- `LEN` (R117), `BUFFERED` only -/
  | len
  /-- `WRITE data` (R115), the producer port of `BUFFERED` -/
  | write (data : List Byte)
  deriving DecidableEq, Repr

/-- `peekbit` (R77) -/
abbrev Instr.peekbit : Instr := .peek1 1

/-- `readbit` (R77) -/
abbrev Instr.readbit : Instr := .read1 1

/-- `readbyte` (R77) -/
abbrev Instr.readbyte : Instr := .read8 8

end Sys2Proof
end

