-- ==== Sys2Proof/WellFormed.lean ====
section
/-! DEFINITION. Which terms of `Instr` are transactions of a block configured for a mode (spec/30_encoding.md R65, R73).
The range of a width operand is NOT a matter of form: `read8 0` is a legal command that answers `WidthOverflow`
(R68, R74). -/

namespace Sys2Proof

/-- The checks: `LEN` and `WRITE` exist in `BUFFERED` only (R73), and a `WRITE`'s byte count fits its `u64` header field
`L` (R65). -/
def Instr.wellFormed (m : Mode) : Instr → Bool
  | .peek1 _ => true
  | .read1 _ => true
  | .peek8 _ => true
  | .read8 _ => true
  | .peek16 _ => true
  | .read16 _ => true
  | .peek32 _ => true
  | .read32 _ => true
  | .peek64 _ => true
  | .read64 _ => true
  | .skip _ => true
  | .align => true
  | .isAligned => true
  | .readBytes _ => true
  | .len => decide (m = .buffered)
  | .write data => decide (m = .buffered) && decide (data.length < 2 ^ 64)

end Sys2Proof
end

