-- ==== Sys2Proof/Decode.lean ====
section
/-! DEFINITION. The encodings of the command port and the producer port (spec/30_encoding.md R63, R65, R67 to R70, R73,
R74): the decoder, total on every word and rejecting by name, and after it the encoder and the opcode table. -/

namespace Sys2Proof

/-- The two ports a client of the block is connected to (R63, R65). -/
inductive Port where
  | command
  | producer
  deriving DecidableEq, Repr

/-- What a client presents at a port: a 72-bit word, and the data bytes that follow it (none on the command port, R63;
`L` of them on the producer port, R65). -/
structure Packet where
  word : PortWord
  data : List Byte
  deriving DecidableEq, Repr

/-- Why a word is no instruction of the block (R70). -/
inductive Reject where
  /-- a command-port `op` that R67 does not list -/
  | reservedOpcode
  /-- a format `C0` command with `arg ≠ 0` (R69) -/
  | nonzeroOperand
  /-- `LEN` in `MODE = DIRECT` (R73) -/
  | lenInDirect
  /-- a producer header with `op ≠ 0x30` (R65) -/
  | notWriteHeader
  /-- anything on a producer port in `MODE = DIRECT`, where the block has none (R65, R73) -/
  | noProducerPort
  /-- a header whose `L` is not the number of bytes that follow it: not a transaction of format `P` (R65) -/
  | lengthMismatch
  deriving DecidableEq, Repr

/-- The decoder's answer (R74): one instruction, or a rejection by name. -/
inductive Decoded where
  | instr (i : Instr)
  | reject (r : Reject)
  deriving DecidableEq, Repr

/-- `cmd[71:64]`, `wr[71:64]` (R63, R65). -/
def opField (w : PortWord) : BitVec 8 := w.extractLsb' 64 8

/-- `cmd[63:0]`, `wr[63:0]` (R63, R65). -/
def argField (w : PortWord) : Word := w.extractLsb' 0 64

/-- Format `C0` (R63, R69): `arg` must be zero. -/
def noOperand (arg : Word) (i : Instr) : Decoded :=
  if arg = 0 then .instr i else .reject .nonzeroOperand

/-- The command port's opcode map (R67, R70, R73). The opcode field alone decides the row (R74). -/
def decodeCommand (m : Mode) (w : PortWord) : Decoded :=
  match (opField w).toNat with
  | 0x01 => .instr (.peek1 (argField w))
  | 0x02 => .instr (.read1 (argField w))
  | 0x03 => .instr (.peek8 (argField w))
  | 0x04 => .instr (.read8 (argField w))
  | 0x05 => .instr (.peek16 (argField w))
  | 0x06 => .instr (.read16 (argField w))
  | 0x07 => .instr (.peek32 (argField w))
  | 0x08 => .instr (.read32 (argField w))
  | 0x09 => .instr (.peek64 (argField w))
  | 0x0A => .instr (.read64 (argField w))
  | 0x10 => .instr (.skip (argField w))
  | 0x11 => noOperand (argField w) .align
  | 0x12 => noOperand (argField w) .isAligned
  | 0x13 => .instr (.readBytes (argField w))
  | 0x20 =>
    match m with
    | .direct => .reject .lenInDirect
    | .buffered => noOperand (argField w) .len
  | _ => .reject .reservedOpcode

/-- The producer port (R65, R70, R73): a header is `WRITE` or reserved, and `L` bytes follow it. -/
def decodeWrite (m : Mode) (p : Packet) : Decoded :=
  match m with
  | .direct => .reject .noProducerPort
  | .buffered =>
    if opField p.word = 0x30 then
      if p.data.length = (argField p.word).toNat then .instr (.write p.data)
      else .reject .lengthMismatch
    else .reject .notWriteHeader

/-- What either port's packet decodes to. -/
def decode (m : Mode) : Port → Packet → Decoded
  | .command, p => decodeCommand m p.word
  | .producer, p => decodeWrite m p

/-- The port an instruction arrives on (R67). -/
def Instr.port : Instr → Port
  | .peek1 _ => .command
  | .read1 _ => .command
  | .peek8 _ => .command
  | .read8 _ => .command
  | .peek16 _ => .command
  | .read16 _ => .command
  | .peek32 _ => .command
  | .read32 _ => .command
  | .peek64 _ => .command
  | .read64 _ => .command
  | .skip _ => .command
  | .align => .command
  | .isAligned => .command
  | .readBytes _ => .command
  | .len => .command
  | .write _ => .producer

/-- The `op` column of R67. -/
def Instr.opcode : Instr → BitVec 8
  | .peek1 _ => 0x01
  | .read1 _ => 0x02
  | .peek8 _ => 0x03
  | .read8 _ => 0x04
  | .peek16 _ => 0x05
  | .read16 _ => 0x06
  | .peek32 _ => 0x07
  | .read32 _ => 0x08
  | .peek64 _ => 0x09
  | .read64 _ => 0x0A
  | .skip _ => 0x10
  | .align => 0x11
  | .isAligned => 0x12
  | .readBytes _ => 0x13
  | .len => 0x20
  | .write _ => 0x30

/-- The `arg` field: the operand of R68, zero for format `C0` (R69), the byte count `L` of a `WRITE` (R65). -/
def Instr.operand : Instr → Word
  | .peek1 n => n
  | .read1 n => n
  | .peek8 n => n
  | .read8 n => n
  | .peek16 n => n
  | .read16 n => n
  | .peek32 n => n
  | .read32 n => n
  | .peek64 n => n
  | .read64 n => n
  | .skip n => n
  | .align => 0
  | .isAligned => 0
  | .readBytes n => n
  | .len => 0
  | .write data => BitVec.ofNat 64 data.length

/-- The data bytes that follow the word: those of a `WRITE` (R65), none on the command port (R63). -/
def Instr.payload : Instr → List Byte
  | .write data => data
  | .peek1 _ => []
  | .read1 _ => []
  | .peek8 _ => []
  | .read8 _ => []
  | .peek16 _ => []
  | .read16 _ => []
  | .peek32 _ => []
  | .read32 _ => []
  | .peek64 _ => []
  | .read64 _ => []
  | .skip _ => []
  | .align => []
  | .isAligned => []
  | .readBytes _ => []
  | .len => []

/-- The encoder: a line's encoding is `op·2^64 + arg` (R76), and a `WRITE`'s bytes follow its header (R65). -/
def encode (i : Instr) : Packet :=
  { word := i.opcode ++ i.operand, data := i.payload }

/-- One row of spec/opcode_table.json: a word is the row's when `word AND mask = pattern`. -/
structure Row where
  mnemonic : String
  port : Port
  pattern : PortWord
  mask : PortWord
  deriving DecidableEq, Repr

/-- spec/opcode_table.json, row by row. -/
def opcodeTable : List Row :=
  [ ⟨"PEEK1", .command, 0x010000000000000000, 0xFF0000000000000000⟩,
    ⟨"READ1", .command, 0x020000000000000000, 0xFF0000000000000000⟩,
    ⟨"PEEK8", .command, 0x030000000000000000, 0xFF0000000000000000⟩,
    ⟨"READ8", .command, 0x040000000000000000, 0xFF0000000000000000⟩,
    ⟨"PEEK16", .command, 0x050000000000000000, 0xFF0000000000000000⟩,
    ⟨"READ16", .command, 0x060000000000000000, 0xFF0000000000000000⟩,
    ⟨"PEEK32", .command, 0x070000000000000000, 0xFF0000000000000000⟩,
    ⟨"READ32", .command, 0x080000000000000000, 0xFF0000000000000000⟩,
    ⟨"PEEK64", .command, 0x090000000000000000, 0xFF0000000000000000⟩,
    ⟨"READ64", .command, 0x0A0000000000000000, 0xFF0000000000000000⟩,
    ⟨"SKIP", .command, 0x100000000000000000, 0xFF0000000000000000⟩,
    ⟨"ALIGN", .command, 0x110000000000000000, 0xFFFFFFFFFFFFFFFFFF⟩,
    ⟨"IS_ALIGNED", .command, 0x120000000000000000, 0xFFFFFFFFFFFFFFFFFF⟩,
    ⟨"READ_BYTES", .command, 0x130000000000000000, 0xFF0000000000000000⟩,
    ⟨"LEN", .command, 0x200000000000000000, 0xFFFFFFFFFFFFFFFFFF⟩,
    ⟨"WRITE", .producer, 0x300000000000000000, 0xFF0000000000000000⟩ ]

/-- Whether a word is the row's. -/
def Row.covers (r : Row) (w : PortWord) : Bool := decide (w &&& r.mask = r.pattern)

/-- The mnemonic column of R67. -/
def Instr.mnemonic : Instr → String
  | .peek1 _ => "PEEK1"
  | .read1 _ => "READ1"
  | .peek8 _ => "PEEK8"
  | .read8 _ => "READ8"
  | .peek16 _ => "PEEK16"
  | .read16 _ => "READ16"
  | .peek32 _ => "PEEK32"
  | .read32 _ => "READ32"
  | .peek64 _ => "PEEK64"
  | .read64 _ => "READ64"
  | .skip _ => "SKIP"
  | .align => "ALIGN"
  | .isAligned => "IS_ALIGNED"
  | .readBytes _ => "READ_BYTES"
  | .len => "LEN"
  | .write _ => "WRITE"

/-- The lower-case word of the textual form (R76). -/
def Instr.word : Instr → String
  | .peek1 _ => "peek1"
  | .read1 _ => "read1"
  | .peek8 _ => "peek8"
  | .read8 _ => "read8"
  | .peek16 _ => "peek16"
  | .read16 _ => "read16"
  | .peek32 _ => "peek32"
  | .read32 _ => "read32"
  | .peek64 _ => "peek64"
  | .read64 _ => "read64"
  | .skip _ => "skip"
  | .align => "align"
  | .isAligned => "isaligned"
  | .readBytes _ => "readbytes"
  | .len => "len"
  | .write _ => "write"

/-- The numbers of the textual form: one operand, none for format `C0`, the bytes of a `WRITE` (R76). -/
def Instr.numbers : Instr → List Nat
  | .peek1 n => [n.toNat]
  | .read1 n => [n.toNat]
  | .peek8 n => [n.toNat]
  | .read8 n => [n.toNat]
  | .peek16 n => [n.toNat]
  | .read16 n => [n.toNat]
  | .peek32 n => [n.toNat]
  | .read32 n => [n.toNat]
  | .peek64 n => [n.toNat]
  | .read64 n => [n.toNat]
  | .skip n => [n.toNat]
  | .align => []
  | .isAligned => []
  | .readBytes n => [n.toNat]
  | .len => []
  | .write data => data.map (fun b => b.toNat)

/-- The textual form of an instruction (R76): one line, its numbers in decimal. -/
def Instr.line (i : Instr) : String :=
  match i.numbers with
  | [] => i.word
  | ns => i.word ++ " " ++ ", ".intercalate (ns.map toString)

/-- The next `k` bytes of a number, the least significant first: how the opcode table numbers the words that follow the
first. -/
def bytesOf : Nat → Nat → List Byte
  | 0, _ => []
  | k + 1, v => BitVec.ofNat 8 v :: bytesOf k (v / 256)

/-- The packet whose bits are `w`, numbered as spec/opcode_table.json numbers them; every bit above `nbits` is zero. The
72-bit word comes first, and after a `WRITE` header its `L` bytes. -/
def tablePacket (nbits w : Nat) : Packet :=
  let bits := w % 2 ^ nbits
  let word : PortWord := BitVec.ofNat 72 bits
  { word := word,
    data := if opField word = 0x30 then bytesOf (argField word).toNat (bits / 2 ^ 72) else [] }

/-- The port on which the opcode table puts a word: `0x30` is the producer port's, every other `op` the command port's. -/
def tablePort (p : Packet) : Port := if opField p.word = 0x30 then .producer else .command

/-- The instruction the decoder reads from the table's bits, in the configuration that has every row. -/
def decodeTableWord (nbits w : Nat) : Option Instr :=
  let p := tablePacket nbits w
  match decode .buffered (tablePort p) p with
  | .instr i => some i
  | .reject _ => none

end Sys2Proof
end

