-- ==== Sys2Proof/Machine/State.lean ====
section
/-! DEFINITION. The state of the block (spec/10_state.md), its ports and its environment, as plain data; the reasons a
step can stop; the state after reset (R35). -/

namespace Sys2Proof.Machine

/-- The Bit Accumulator's registers (R21, R22). -/
structure Acc where
  /-- `acc.buffer`, left-justified: the top `remaining` bits are valid -/
  buffer : Word
  /-- `acc.remaining`, a natural number that no run takes above 64 -/
  remaining : Nat
  deriving DecidableEq, Repr

/-- The status codes of R71. `insufficientData` is internal: no response carries it (R118). -/
inductive Status where
  | ok
  | widthOverflow
  | alignmentOverflow
  | endOfData
  | unexpectedEndOfData
  | insufficientData
  deriving DecidableEq, Repr

/-- The status of a source response (R66). -/
inductive SrcStatus where
  | ok
  | endOfData
  deriving DecidableEq, Repr

/-- A command's local variables, and with them the position of its pending source request (R27). -/
inductive Progress where
  /-- in the fill loop of `Peek`; `got` bytes obtained so far by this command (R83) -/
  | filling (got : Nat)
  /-- in the loop of `Skip`, at its fill; `owed` bits still to skip (R86) -/
  | skipping (owed : Nat)
  /-- at the pass-through of the byte read; `out` is what it has collected, `want` the bytes it asks for (R107) -/
  | passing (out : List Byte) (want : Nat)
  deriving DecidableEq, Repr

/-- The consumer engine (R27). Between two steps a `busy` engine stands at its next `SrcRead`: in `DIRECT` the request has
been issued and the source has not answered, in `BUFFERED` the next `SinkPull` is to come. -/
inductive Engine where
  | idle
  | busy (cmd : Instr) (progress : Progress)
  /-- blocked in `BlockingSinkRead` until `wake = 1` (R112) -/
  | waiting (cmd : Instr) (progress : Progress)
  deriving DecidableEq, Repr

/-- Where the producer stands in its `WRITE`: the two atomic steps of R115. -/
inductive Producer where
  | idle
  /-- `SinkAppend` is done and `WakePost` is to come (R56) -/
  | posting
  deriving DecidableEq, Repr

/-- One choice of the external byte source for one request: how many bytes it is ready to deliver, and whether it reports
`EndOfData` with them (R43, R44). -/
structure Choice where
  limit : Nat
  eod : Bool
  deriving DecidableEq, Repr

/-- What the source does once its listed choices are used up. -/
inductive Habit where
  /-- the greedy source of spec/40_accumulator.md: all it has, up to `max`, and `(0, EndOfData)` when nothing is left -/
  | greedy
  /-- `(0, OK)` for ever: the livelock that R152 allows -/
  | tryAgain
  deriving DecidableEq, Repr

/-- The external byte source of `DIRECT` (R36, R42, R43): the environment's, not the block's. Whatever these fields hold,
its answers keep the contract R43 (assumption 4). -/
structure Source where
  /-- the bytes it has still to deliver, in stream order -/
  stream : List Byte
  /-- its choices for its next requests, the next one first -/
  choices : List Choice
  /-- what it does after them -/
  habit : Habit
  /-- it has answered `(0, EndOfData)`, and answers nothing else from then on (R43(c)) -/
  ended : Bool
  deriving DecidableEq, Repr

/-- A response on the response port (R64). Its `count` field is the length of `data`. -/
structure Response where
  status : Status
  value : Word
  data : List Byte
  deriving DecidableEq, Repr

/-- One completed `SrcRead` (R10): what was asked for, what came, and its status. -/
structure Exchange where
  max : Nat
  bytes : List Byte
  status : SrcStatus
  deriving DecidableEq, Repr

/-- Who takes the next atomic step (R55), or the reset input (R140). -/
inductive Turn where
  | engine
  | producer
  | reset
  deriving DecidableEq, Repr

/-- Why a step stops with a fault. The block itself has none: its errors are response statuses (R131). -/
inductive Fault where
  /-- Raised by the engine when a fill would ask for no byte, because the accumulator has no room for one. R81 derives
  that no run reaches this. SAFE: the model stops, and states that meet the invariant never raise it. -/
  | fillWithoutRoom
  deriving DecidableEq, Repr

/-- Why a step has no meaning. -/
inductive Refusal where
  /-- No meaning yet: exec's arm of that instruction refuses it by its mnemonic. SAFE. Raised by no arm now. -/
  | notModelled (mnemonic : String)
  /-- A reserved word at a port, raised by the step that fetches it, and `LEN` or `WRITE` presented to a block in
  `DIRECT`, raised by their meanings (R69, R70, R73: "A model refuses it"). SAFE. -/
  | reserved (why : Reject)
  /-- A transaction presented while the port does not accept one: raised by every command's meaning while the engine is
  not `Idle` (R75, 93_implementation_defined.md item 15), and by `WRITE`'s while the producer is in its previous `WRITE`
  (R65). SAFE: the step never fetches from a port in that state. -/
  | portBusy (port : Port)
  /-- Raised by `WRITE` when its data do not fit a finite `SINK_CAPACITY` (R62: "refused"). SAFE. -/
  | sinkFull
  deriving DecidableEq, Repr

/-- The machine: the configuration, the block's state (R20), the ports, and the environment that a closed machine needs.
`acc`, `sink`, `wake` and `engine` are the whole of R20's inventory. -/
structure State where
  /-- `MODE` and the open parameters; no step writes it (R2, R7, R31) -/
  cfg : Config
  /-- `acc.buffer` and `acc.remaining` (R21, R22) -/
  acc : Acc
  /-- the byte sink, head first (R24); used in `BUFFERED` only -/
  sink : List Byte
  /-- the one-slot wake flag (R25); used in `BUFFERED` only -/
  wake : Bool
  /-- the consumer engine (R27) -/
  engine : Engine
  /-- the producer's place in its `WRITE` (R56, R115) -/
  producer : Producer
  /-- the command port: the consumer's commands still to be accepted, in order (R63, R75) -/
  commands : List PortWord
  /-- the producer port: the transactions still to start, in order (R65) -/
  writes : List Packet
  /-- the external byte source of `DIRECT` (R36, R42) -/
  source : Source
  /-- the schedule: whose atomic step comes next, for as long as it is listed (R55, assumption 5) -/
  turns : List Turn
  /-- the response port: every response so far, the oldest first (R64) -/
  responses : List Response
  /-- the source channel: every completed `SrcRead` since reset, the oldest first (R42, R66, R112) -/
  exchanges : List Exchange
  deriving DecidableEq, Repr

/-- A source that holds nothing (R36: what the source holds is the environment's, assumption 2). -/
def Source.empty : Source := { stream := [], choices := [], habit := .greedy, ended := false }

/-- The machine right after reset (R35, R140), in a given configuration and on a given source: nothing has been sent,
answered or taken. -/
def State.fresh (cfg : Config) (source : Source) : State :=
  { cfg := cfg
    acc := { buffer := 0, remaining := 0 }
    sink := []
    wake := false
    engine := .idle
    producer := .idle
    commands := []
    writes := []
    source := source
    turns := []
    responses := []
    exchanges := [] }

/-- The machine right after reset, in the standard configuration (R35, assumption 2). -/
def State.reset : State := State.fresh Config.standard Source.empty

end Sys2Proof.Machine
end

