-- ==== Sys2Proof/Machine/Operands.lean ====
section
/-! DEFINITION. Operand and result forms (spec/30_encoding.md R64, R66, R68, R71, R72): what a command's operand means,
and how statuses, results and responses stand on the ports. -/

namespace Sys2Proof.Machine

/-- The result width `w` of a width-typed command (R67); the other commands have none. -/
def resultWidth : Instr → Option Nat
  | .peek1 _ => some 1
  | .read1 _ => some 1
  | .peek8 _ => some 8
  | .read8 _ => some 8
  | .peek16 _ => some 16
  | .read16 _ => some 16
  | .peek32 _ => some 32
  | .read32 _ => some 32
  | .peek64 _ => some 64
  | .read64 _ => some 64
  | .skip _ => none
  | .align => none
  | .isAligned => none
  | .readBytes _ => none
  | .len => none
  | .write _ => none

/-- Whether a width-typed command is a `READw`, which skips what it peeked (R88, R93). -/
def consumes : Instr → Bool
  | .read1 _ => true
  | .read8 _ => true
  | .read16 _ => true
  | .read32 _ => true
  | .read64 _ => true
  | .peek1 _ => false
  | .peek8 _ => false
  | .peek16 _ => false
  | .peek32 _ => false
  | .peek64 _ => false
  | .skip _ => false
  | .align => false
  | .isAligned => false
  | .readBytes _ => false
  | .len => false
  | .write _ => false

/-- The count an operand stands for: unsigned, in full, neither extended nor scaled (R68). -/
def count (cmd : Instr) : Nat := cmd.operand.toNat

/-- `status` on the response port (R71). -/
def Status.code : Status → BitVec 8
  | .ok => 0x00
  | .widthOverflow => 0x01
  | .alignmentOverflow => 0x02
  | .endOfData => 0x03
  | .unexpectedEndOfData => 0x04
  | .insufficientData => 0x05

/-- `status` on the source port (R66). -/
def SrcStatus.bit : SrcStatus → BitVec 1
  | .ok => 0
  | .endOfData => 1

/-- A source status as the byte read passes it through to its response (R107). -/
def SrcStatus.status : SrcStatus → Status
  | .ok => .ok
  | .endOfData => .endOfData

/-- `rsp[63:0]`: the number of data bytes that follow the header (R64). -/
def Response.count (r : Response) : Word := BitVec.ofNat 64 r.data.length

/-- The 136-bit response header: `status`, `value`, `count` (R64). -/
def Response.header (r : Response) : BitVec 136 := r.status.code ++ (r.value ++ r.count)

end Sys2Proof.Machine
end

