-- ==== Sys2Proof/Machine/Flags.lean ====
section
/-! DEFINITION. The derived flag and the checks that decide a command's status (spec/10_state.md R26,
spec/60_exceptions.md R125 to R130, R133). No flag is stored. -/

namespace Sys2Proof.Machine

/-- `aligned = (acc.remaining mod 8 = 0)` (R26). -/
def Acc.aligned (a : Acc) : Bool := decide (a.remaining % 8 = 0)

/-- `WidthOverflow` (R93, R126): `n` outside `[1, w]`. -/
def widthOverflow (w n : Nat) : Bool := decide (n < 1) || decide (w < n)

/-- `ALIGN_LIMIT` (R6). -/
abbrev alignLimit : Nat := 56

/-- `AlignmentOverflow` (R82, R127): more than 56 bits while not aligned. -/
def alignmentOverflow (a : Acc) (n : Nat) : Bool := decide (alignLimit < n) && !a.aligned

/-- The status `PEEK_PARTIAL_EOF` stands for (R7). -/
def partialStatus : PartialEof → Status
  | .endOfData => .endOfData
  | .unexpectedEndOfData => .unexpectedEndOfData

/-- The status of a `Peek` whose fill met the end of data with `got` bytes obtained by this command (R83). -/
def peekEndStatus (cfg : Config) (got : Nat) : Status :=
  if got = 0 then .endOfData else partialStatus cfg.partialEof

/-- `Read` re-signals `EndOfData` as `UnexpectedEndOfData` and passes any other status through (R88, R134). -/
def readStatus : Status → Status
  | .endOfData => .unexpectedEndOfData
  | .ok => .ok
  | .widthOverflow => .widthOverflow
  | .alignmentOverflow => .alignmentOverflow
  | .unexpectedEndOfData => .unexpectedEndOfData
  | .insufficientData => .insufficientData

/-- The status of a width-typed command that met the end of data (R93 items 3 and 4). -/
def endStatus (cfg : Config) (cmd : Instr) (got : Nat) : Status :=
  if consumes cmd then readStatus (peekEndStatus cfg got) else peekEndStatus cfg got

end Sys2Proof.Machine
end

