-- ==== Sys2Proof/Machine/Ops.lean ====
section
/-! DEFINITION. The shared operations: the accumulator's registers (spec/40_accumulator.md), the byte source
(spec/20_memory.md R42 to R44), the sink and wake steps (R51 to R54), ending a command with a response (R10, R131), and
the engine that runs a command from one `SrcRead` to the next (R27, R55, R112). -/

namespace Sys2Proof.Machine

/-! ### The accumulator -/

/-- `cap` (R80): the whole bytes that fit above `acc.remaining`. -/
def Acc.cap (a : Acc) : Nat := (64 - a.remaining) / 8

/-- One round of fill's packing loop (R80): `acc.buffer[63-remaining : 56-remaining] <- b`, then `remaining + 8`. -/
def Acc.absorbByte (a : Acc) (b : Byte) : Acc :=
  let low := 56 - a.remaining
  { buffer := (a.buffer &&& ~~~((0xFF : Word) <<< low)) ||| (b.setWidth 64 <<< low)
    remaining := a.remaining + 8 }

/-- Fill's packing loop (R80): each byte in order, just below the valid bits. -/
def Acc.absorb : Acc → List Byte → Acc
  | a, [] => a
  | a, b :: bs => (a.absorbByte b).absorb bs

/-- Peek's extraction (R84): `(buffer & (ones64 << shift)) >> shift` with `shift = 64 - n`. -/
def Acc.top (a : Acc) (n : Nat) : Word :=
  let shift := 64 - n
  (a.buffer &&& (BitVec.allOnes 64 <<< shift)) >>> shift

/-- Skip's consumption of `k` held bits (R86): a logical left shift, where 64 gives 0. -/
def Acc.drop (a : Acc) (k : Nat) : Acc :=
  { buffer := a.buffer <<< k, remaining := a.remaining - k }

/-- The byte read's drain (R107): `Read(8)`, `d` times, on bits the accumulator holds. -/
def Acc.drain : Nat → Acc → List Byte × Acc
  | 0, a => ([], a)
  | d + 1, a =>
    let rest := (a.drop 8).drain d
    ((a.top 8).setWidth 8 :: rest.1, rest.2)

/-- `Align` (R105): `Skip(remaining mod 8)`, which never needs a fill. -/
def Acc.align (a : Acc) : Acc := a.drop (a.remaining % 8)

/-! ### The byte source of `DIRECT` -/

/-- The status a source reports beside its bytes. -/
def srcStatus (eod : Bool) : SrcStatus := if eod then .endOfData else .ok

/-- The source's answer to one request for at most `max` bytes (R42 to R44): the bytes, the status, and the source
afterwards. `(0, EndOfData)` is permanent (R43(c)). -/
def Source.answer (src : Source) (max : Nat) : List Byte × SrcStatus × Source :=
  if src.ended then ([], .endOfData, src)
  else
    match src.choices with
    | c :: rest =>
      let bytes := src.stream.take (min c.limit max)
      (bytes, srcStatus c.eod,
        { src with
          stream := src.stream.drop (min c.limit max)
          choices := rest
          ended := c.eod && bytes.isEmpty })
    | [] =>
      match src.habit with
      | .greedy =>
        let bytes := src.stream.take max
        (bytes, srcStatus bytes.isEmpty,
          { src with stream := src.stream.drop max, ended := bytes.isEmpty })
      | .tryAgain => ([], .ok, src)

/-! ### The sink and the wake flag of `BUFFERED` -/

/-- `SinkPull(max)` (R51). -/
def sinkPull (max : Nat) (s : State) : List Byte × Status × State :=
  if s.sink.isEmpty then ([], .insufficientData, s)
  else (s.sink.take max, .ok, { s with sink := s.sink.drop max })

/-- Whether `data` fits the sink (R52, R62). -/
def sinkFits (data : List Byte) (s : State) : Bool :=
  match s.cfg.sinkCapacity with
  | none => true
  | some capacity => decide (s.sink.length + data.length ≤ capacity)

/-- `SinkAppend(data)` (R52). -/
def sinkAppend (data : List Byte) (s : State) : State := { s with sink := s.sink ++ data }

/-- `WakePost()` (R53). -/
def wakePost (s : State) : State := { s with wake := true }

/-- `WakeTake()` (R54); its caller takes it only while `wake = 1`. -/
def wakeTake (s : State) : State := { s with wake := false }

/-! ### Ending a command -/

/-- A command's response is produced and the engine returns to `Idle` (R27, R64, R131). -/
def respond (r : Response) (s : State) : State :=
  { s with engine := .idle, responses := s.responses ++ [r] }

/-- `return v` (R10): status `OK` and a result. -/
def finish (v : Word) (s : State) : State := respond { status := .ok, value := v, data := [] } s

/-- `raise E` (R10), the block's one way to report an error: the response carries `E` and the value 0 (R136), the state
changes made before it stay, and nothing is saved, masked or vectored (R131). There is nothing to return from (R132). -/
def raise (e : Status) (s : State) : State := respond { status := e, value := 0, data := [] } s

/-! ### The micro-operations, between two source requests -/

/-- The end of a width-typed command whose bits are held: `Peek`'s extraction (R84), and for a `READw` the skip of the
same bits, which never fills (R88). -/
def finishWidth (cmd : Instr) (s : State) : State :=
  let v := s.acc.top (count cmd)
  if consumes cmd then finish v { s with acc := s.acc.drop (count cmd) } else finish v s

/-- `Peek`'s fill loop (R83) up to its next fill, with `got` bytes obtained so far. -/
def peekLoop (cmd : Instr) (got : Nat) (s : State) : State :=
  if count cmd ≤ s.acc.remaining then finishWidth cmd s
  else { s with engine := .busy cmd (.filling got) }

/-- `Skip`'s loop (R86) up to its next fill: consume `min(owed, remaining)`, and while bits are owed the accumulator is
empty and a fill is next. -/
def skipLoop (cmd : Instr) (owed : Nat) (s : State) : State :=
  let k := min owed s.acc.remaining
  let t : State := { s with acc := s.acc.drop k }
  if owed - k = 0 then finish 0 t else { t with engine := .busy cmd (.skipping (owed - k)) }

/-- What the pending `SrcRead` asks for (R42): fill's capacity, or the rest of a byte read (R107). -/
def request (a : Acc) : Progress → Nat
  | .filling _ => a.cap
  | .skipping _ => a.cap
  | .passing _ want => want

/-- The rest of fill after its request was answered (R80), and what its caller does then: with bytes, absorb them and go
on with `next`; with none, `onEnd` at the end of data, and the same request again on `(0, OK)`. -/
def fillWith (bytes : List Byte) (st : SrcStatus) (next onEnd : State → State) (s : State) : State :=
  if bytes.isEmpty then
    match st with
    | .endOfData => onEnd s
    | .ok => s
  else next { s with acc := s.acc.absorb bytes }

/-- The command `cmd` goes on with the answer to its `SrcRead` (R80, R83, R86, R107), up to its next `SrcRead` or its
response. -/
def deliver (cmd : Instr) (p : Progress) (bytes : List Byte) (st : SrcStatus) (s : State) : State :=
  let b : State := { s with engine := .busy cmd p }
  match p with
  | .filling got =>
    fillWith bytes st (peekLoop cmd (got + bytes.length)) (raise (endStatus s.cfg cmd got)) b
  | .skipping owed => fillWith bytes st (skipLoop cmd owed) (raise .unexpectedEndOfData) b
  | .passing out _ => respond { status := st.status, value := 0, data := out ++ bytes } b

/-! ### The consumer engine -/

/-- A completed `SrcRead`, kept in the record of the source channel. -/
def record (max : Nat) (bytes : List Byte) (st : SrcStatus) (s : State) : State :=
  { s with exchanges := s.exchanges ++ [{ max := max, bytes := bytes, status := st }] }

/-- The source of `DIRECT` answers the pending request and the command goes on (R42). -/
def directStep (cmd : Instr) (p : Progress) (s : State) : State :=
  let max := request s.acc p
  let a := s.source.answer max
  deliver cmd p a.1 a.2.1 (record max a.1 a.2.1 { s with source := a.2.2 })

/-- One attempt of `BlockingSinkRead` (R112): pull, and go on with what came or wait. -/
def pullStep (cmd : Instr) (p : Progress) (s : State) : State :=
  let max := request s.acc p
  let a := sinkPull max s
  match a.2.1 with
  | .insufficientData => { s with engine := .waiting cmd p }
  | .ok => deliver cmd p a.1 .ok (record max a.1 .ok a.2.2)
  | .widthOverflow => s
  | .alignmentOverflow => s
  | .endOfData => s
  | .unexpectedEndOfData => s

/-- Whether the engine has a step by itself (R123): it has none when it is idle, and none when it is waiting with
`wake = 0`. -/
def engineReady (s : State) : Bool :=
  match s.engine with
  | .idle => false
  | .busy _ _ => true
  | .waiting _ _ => s.wake

/-- One atomic step of the engine, with the local computation that follows it (R55): the pending `SrcRead`, or the take of
a wake token, after which the command keeps its progress (R113). -/
def engineStep (s : State) : Host.Outcome State Fault Refusal :=
  match s.engine with
  | .idle => .next s
  | .busy cmd p =>
    if request s.acc p = 0 then .fault .fillWithoutRoom
    else
      match s.cfg.mode with
      | .direct => .next (directStep cmd p s)
      | .buffered => .next (pullStep cmd p s)
  | .waiting cmd p =>
    if s.wake then .next { wakeTake s with engine := .busy cmd p } else .next s

/-- The engine goes on while it has a step and no other turn is listed (R55, assumption 5), at most so many steps: a
command that is still running then goes on at the next turn. -/
def engineRun : Nat → State → Host.Outcome State Fault Refusal
  | 0, s => .next s
  | fuel + 1, s =>
    if engineReady s && s.turns.isEmpty then
      match engineStep s with
      | .next t => engineRun fuel t
      | .fault r => .fault r
      | .refused r => .refused r
    else .next s

/-- More steps than any command takes on the bytes at hand; only a source that answers `(0, OK)` for ever outlasts it
(R152). -/
def engineFuel (s : State) : Nat :=
  s.sink.length + s.source.stream.length + s.source.choices.length + 4

/-- The engine runs on from a state. -/
def runOn (s : State) : Host.Outcome State Fault Refusal := engineRun (engineFuel s) s

/-- The command port accepts a command only while the engine is `Idle` (R75); the command starts with `first`, its local
computation up to its first `SrcRead`, and runs on. -/
def onCommandPort (first : State → State) (s : State) : Host.Outcome State Fault Refusal :=
  match s.engine with
  | .idle => runOn (first s)
  | .busy _ _ => .refused (.portBusy .command)
  | .waiting _ _ => .refused (.portBusy .command)

/-! ### The reset input -/

/-- A source request in flight has its response ignored (R142): the source still answers it, and what it delivers is
lost. -/
def sourceAfterReset (s : State) : Source :=
  match s.cfg.mode, s.engine with
  | .direct, .busy _ p => (s.source.answer (request s.acc p)).2.2
  | .direct, .idle => s.source
  | .direct, .waiting _ _ => s.source
  | .buffered, _ => s.source

/-- The reset input (R140 to R142): every piece of the block's state takes its reset value, a command in progress is
abandoned without a response, a `WRITE` in progress is over; the configuration, the source's position and the clients'
transactions are untouched, and the record of bytes taken since reset starts anew. -/
def resetInput (s : State) : State :=
  { s with
    acc := { buffer := 0, remaining := 0 }
    sink := []
    wake := false
    engine := .idle
    producer := .idle
    source := sourceAfterReset s
    exchanges := [] }

end Sys2Proof.Machine
end

