-- ==== Sys2Proof/Machine/Buffered.lean ====
section
/-! DEFINITION. `LEN` and `WRITE`, which exist in `MODE = BUFFERED` only (spec/42_buffered.md R115 to R117). -/

namespace Sys2Proof.Machine

/-- The value of `LEN` (R79, R117): `len(sink)`, and a free value where a `u64` cannot hold it (assumption 3). -/
def lenValue (s : State) : Word :=
  if s.sink.length < 2 ^ 64 then BitVec.ofNat 64 s.sink.length
  else Config.lenBeyondWord s.responses.length s.sink.length

/-- `LEN` (R117): one atomic read of the sink's length (R55); in `DIRECT` the word is reserved (R73). -/
def execLen (s : State) : Host.Outcome State Fault Refusal :=
  match s.cfg.mode with
  | .direct => .refused (.reserved .lenInDirect)
  | .buffered => onCommandPort (fun t => finish (lenValue t) t) s

/-- `WRITE data` (R115): `SinkAppend`, then `WakePost`. They are two atomic steps (R56): while further turns are listed the
post waits for the producer's next turn, and otherwise it follows at once. -/
def execWrite (data : List Byte) (s : State) : Host.Outcome State Fault Refusal :=
  match s.cfg.mode, s.producer with
  | .direct, _ => .refused (.reserved .noProducerPort)
  | .buffered, .posting => .refused (.portBusy .producer)
  | .buffered, .idle =>
    if sinkFits data s then
      if s.turns.isEmpty then .next (wakePost (sinkAppend data s))
      else .next { sinkAppend data s with producer := .posting }
    else .refused .sinkFull

end Sys2Proof.Machine
end

