-- ==== Sys2Proof/Machine/Stream.lean ====
section
/-! DEFINITION. `SKIP`, `ALIGN`, `IS_ALIGNED` and `READ_BYTES` (spec/41_stream_reader.md R104 to R107). -/

namespace Sys2Proof.Machine

/-- `SKIP n` (R104): `Skip(n)`, any 64-bit count. -/
def execSkip (n : Word) (s : State) : Host.Outcome State Fault Refusal :=
  onCommandPort (skipLoop (.skip n) n.toNat) s

/-- `Align` (R105): skip to the byte boundary and return the number of bits discarded. -/
def alignStart (s : State) : State :=
  finish (BitVec.ofNat 64 (s.acc.remaining % 8)) { s with acc := s.acc.align }

/-- `ALIGN` (R105). -/
def execAlign (s : State) : Host.Outcome State Fault Refusal := onCommandPort alignStart s

/-- `IS_ALIGNED` (R106): the derived flag, 1 or 0. -/
def isAlignedStart (s : State) : State := finish (if s.acc.aligned then 1 else 0) s

/-- `IS_ALIGNED` (R106). -/
def execIsAligned (s : State) : Host.Outcome State Fault Refusal := onCommandPort isAlignedStart s

/-- `ReadBytes(L)` (R107) up to its pass-through: align, drain `min(remaining / 8, L)` whole bytes, and if more are wanted
one request for the rest is next. -/
def readBytesStart (len : Word) (s : State) : State :=
  let a := s.acc.align
  let d := min (a.remaining / 8) len.toNat
  let drained := a.drain d
  let t : State := { s with acc := drained.2 }
  if len.toNat - d = 0 then respond { status := .ok, value := 0, data := drained.1 } t
  else { t with engine := .busy (.readBytes len) (.passing drained.1 (len.toNat - d)) }

/-- `READ_BYTES L` (R107). -/
def execReadBytes (len : Word) (s : State) : Host.Outcome State Fault Refusal :=
  onCommandPort (readBytesStart len) s

end Sys2Proof.Machine
end

