-- ==== Sys2Proof/Machine/Width.lean ====
section
/-! DEFINITION. The width-typed commands `PEEKw` and `READw` (spec/41_stream_reader.md R93 to R103). -/

namespace Sys2Proof.Machine

/-- The local computation of `WidthTyped` (R93) up to its first fill: the statuses in the order of R93 and R133, then
`Peek`'s loop with no byte obtained yet. -/
def widthStart (cmd : Instr) (w : Nat) (s : State) : State :=
  if widthOverflow w (count cmd) then raise .widthOverflow s
  else if alignmentOverflow s.acc (count cmd) then raise .alignmentOverflow s
  else peekLoop cmd 0 s

/-- `WidthTyped(kind, w, n)` (R93), for the command `cmd` of width `w`. -/
def widthTyped (cmd : Instr) (w : Nat) (s : State) : Host.Outcome State Fault Refusal :=
  onCommandPort (widthStart cmd w) s

/-- `PEEK1` (R94): `WidthTyped(PEEK, 1, n)`. -/
def execPeek1 (n : Word) (s : State) : Host.Outcome State Fault Refusal := widthTyped (.peek1 n) 1 s

/-- `READ1` (R95): `WidthTyped(READ, 1, n)`. -/
def execRead1 (n : Word) (s : State) : Host.Outcome State Fault Refusal := widthTyped (.read1 n) 1 s

/-- `PEEK8` (R96): `WidthTyped(PEEK, 8, n)`. -/
def execPeek8 (n : Word) (s : State) : Host.Outcome State Fault Refusal := widthTyped (.peek8 n) 8 s

/-- `READ8` (R97): `WidthTyped(READ, 8, n)`. -/
def execRead8 (n : Word) (s : State) : Host.Outcome State Fault Refusal := widthTyped (.read8 n) 8 s

/-- `PEEK16` (R98): `WidthTyped(PEEK, 16, n)`. -/
def execPeek16 (n : Word) (s : State) : Host.Outcome State Fault Refusal := widthTyped (.peek16 n) 16 s

/-- `READ16` (R99): `WidthTyped(READ, 16, n)`. -/
def execRead16 (n : Word) (s : State) : Host.Outcome State Fault Refusal := widthTyped (.read16 n) 16 s

/-- `PEEK32` (R100): `WidthTyped(PEEK, 32, n)`. -/
def execPeek32 (n : Word) (s : State) : Host.Outcome State Fault Refusal := widthTyped (.peek32 n) 32 s

/-- `READ32` (R101): `WidthTyped(READ, 32, n)`. -/
def execRead32 (n : Word) (s : State) : Host.Outcome State Fault Refusal := widthTyped (.read32 n) 32 s

/-- `PEEK64` (R102): `WidthTyped(PEEK, 64, n)`. -/
def execPeek64 (n : Word) (s : State) : Host.Outcome State Fault Refusal := widthTyped (.peek64 n) 64 s

/-- `READ64` (R103): `WidthTyped(READ, 64, n)`. -/
def execRead64 (n : Word) (s : State) : Host.Outcome State Fault Refusal := widthTyped (.read64 n) 64 s

end Sys2Proof.Machine
end

