-- ==== Sys2Proof/Machine/Dispatch.lean ====
section
/-! DEFINITION. exec: one arm per constructor of Instr, each a call of that instruction's meaning. -/

namespace Sys2Proof.Machine

def exec (i : Instr) (s : State) : Host.Outcome State Fault Refusal :=
  match i with
  | .peek1 n => Sys2Proof.Machine.execPeek1 n s
  | .read1 n => Sys2Proof.Machine.execRead1 n s
  | .peek8 n => Sys2Proof.Machine.execPeek8 n s
  | .read8 n => Sys2Proof.Machine.execRead8 n s
  | .peek16 n => Sys2Proof.Machine.execPeek16 n s
  | .read16 n => Sys2Proof.Machine.execRead16 n s
  | .peek32 n => Sys2Proof.Machine.execPeek32 n s
  | .read32 n => Sys2Proof.Machine.execRead32 n s
  | .peek64 n => Sys2Proof.Machine.execPeek64 n s
  | .read64 n => Sys2Proof.Machine.execRead64 n s
  | .skip n => Sys2Proof.Machine.execSkip n s
  | .align => Sys2Proof.Machine.execAlign s
  | .isAligned => Sys2Proof.Machine.execIsAligned s
  | .readBytes len => Sys2Proof.Machine.execReadBytes len s
  | .len => Sys2Proof.Machine.execLen s
  | .write data => Sys2Proof.Machine.execWrite data s

end Sys2Proof.Machine
end

