-- ==== Sys2Proof/Machine/Fetch.lean ====
section
/-! DEFINITION. Whose step comes next (spec/20_memory.md R55), and how a client's transaction is taken from its port
(spec/30_encoding.md R63, R65, R70, R75). -/

namespace Sys2Proof.Machine

/-- Whether the consumer side can move: the engine has a step, or it is idle and a command is at its port. -/
def consumerCanMove (s : State) : Bool :=
  match s.engine with
  | .idle => !s.commands.isEmpty
  | .busy _ _ => engineReady s
  | .waiting _ _ => engineReady s

/-- Whose turn it is: the listed one; when none is listed, the engine's while the consumer side can move, and the
producer's otherwise (assumption 5). -/
def nextTurn (s : State) : Turn :=
  match s.turns with
  | t :: _ => t
  | [] => if consumerCanMove s then .engine else .producer

/-- The turn is used up. -/
def popTurn (s : State) : State := { s with turns := s.turns.tail }

/-- The engine's turn (R27, R75): an idle engine accepts the next command, or has none to accept; a running one takes its
next atomic step; a blocked one has no step (R123). -/
def engineTurn (s : State) : Host.Outcome State Fault Refusal :=
  match s.engine with
  | .idle =>
    match s.commands with
    | [] => .next s
    | w :: rest =>
      match decodeCommand s.cfg.mode w with
      | .instr i => exec i { s with commands := rest }
      | .reject r => .refused (.reserved r)
  | .busy _ _ =>
    match engineStep s with
    | .next t => runOn t
    | .fault r => .fault r
    | .refused r => .refused r
  | .waiting _ _ =>
    match engineStep s with
    | .next t => runOn t
    | .fault r => .fault r
    | .refused r => .refused r

/-- The producer's turn (R115): the post that its `WRITE` still owes, or its next `WRITE`. -/
def producerTurn (s : State) : Host.Outcome State Fault Refusal :=
  match s.producer with
  | .posting => .next { wakePost s with producer := .idle }
  | .idle =>
    match s.writes with
    | [] => .next s
    | p :: rest =>
      match decodeWrite s.cfg.mode p with
      | .instr i => exec i { s with writes := rest }
      | .reject r => .refused (.reserved r)

/-- A packet at the head of its port, and the turn of the agent that takes it: its engine or producer ready to accept. -/
def presentPacket (s : State) (p : Packet) : State :=
  match tablePort p with
  | .command =>
    { s with commands := p.word :: s.commands, engine := .idle, turns := .engine :: s.turns }
  | .producer =>
    { s with writes := p :: s.writes, producer := .idle, turns := .producer :: s.turns }

/-- The step of the agent whose turn it is. -/
def turnStep (t : Turn) (s : State) : Host.Outcome State Fault Refusal :=
  match t with
  | .engine => engineTurn s
  | .producer => producerTurn s
  | .reset => .next (resetInput s)

end Sys2Proof.Machine
end

