-- ==== Sys2Proof/Machine/Step.lean ====
section
/-! DEFINITION. One step of the machine: the agent whose turn it is takes its step (spec/20_memory.md R55). -/

namespace Sys2Proof.Machine

/-- One step (R55): the turn is used up and its agent moves. An agent that has no step leaves the machine as it is: the
block waits for its clients (R123, R156). -/
def step (s : State) : Host.Outcome State Fault Refusal := turnStep (nextTurn s) (popTurn s)

/-- `s` with the opcode table's word at the head of its port and the turn of the agent that takes it: the very next step
runs that instruction. -/
def State.withFetchWord (s : State) (nbits w : Nat) : State := presentPacket s (tablePacket nbits w)

end Sys2Proof.Machine
end

