-- ==== Sys2Proof/Safety.lean ====
section
/-! DEFINITION. The terms in which claims about runs are made: the byte stream and the cursor (spec/20_memory.md R45,
spec/10_state.md R37), the invariants of the block (R22, R23, R27, R58, R62), and where a run rests (R123, R156). -/

namespace Sys2Proof.Machine

/-! ### The stream -/

/-- The bit at a stream position (R45): `s[c / 8][7 - (c mod 8)]`. Beyond the stream it is false. -/
def streamBit (bytes : List Byte) (c : Nat) : Bool := (bytes.getD (c / 8) 0).getLsbD (7 - c % 8)

/-- The bytes the block has taken from its source or its sink since reset, in the order taken (R37). -/
def State.taken (s : State) : List Byte := s.exchanges.flatMap (fun e => e.bytes)

/-- The cursor (R37): `8 * taken - remaining`. -/
def State.cursor (s : State) : Nat := 8 * s.taken.length - s.acc.remaining

/-- The `n`-bit value at a stream position, the first stream bit the most significant (R46). -/
def streamValue (bytes : List Byte) (c : Nat) : Nat → Nat
  | 0 => 0
  | n + 1 => 2 * streamValue bytes c n + (streamBit bytes (c + n)).toNat

/-! ### The invariants -/

/-- R22 and R23: `remaining ≤ 64`, and the bits below the valid ones are zero. -/
abbrev Acc.Wf (a : Acc) : Prop :=
  a.remaining ≤ 64 ∧ ∀ i, i < 64 - a.remaining → a.buffer.getLsbD i = false

/-- The valid bits are the last bits of the taken stream, the next one first (R16, R21, R37, R45). -/
abbrev HoldsStream (s : State) : Prop :=
  s.acc.remaining ≤ 8 * s.taken.length ∧
    ∀ i, i < s.acc.remaining → s.acc.buffer.getMsbD i = streamBit s.taken (s.cursor + i)

/-- What a command in progress and the accumulator say of each other (R81 to R83, R86, R107). -/
def ProgressWf (a : Acc) (cmd : Instr) : Progress → Bool
  | .filling _ =>
    match resultWidth cmd with
    | some w => !widthOverflow w (count cmd) && !alignmentOverflow a (count cmd) && decide (a.remaining < count cmd)
    | none => false
  | .skipping owed =>
    match cmd with
    | .skip n => decide (0 < owed) && decide (owed ≤ n.toNat) && decide (a.remaining = 0)
    | _ => false
  | .passing out want =>
    match cmd with
    | .readBytes n => decide (0 < want) && decide (out.length + want = n.toNat) && decide (a.remaining = 0)
    | _ => false

/-- The engine's state fits the accumulator's, and it waits in `BUFFERED` only (R27). -/
def EngineWf (s : State) : Bool :=
  match s.engine with
  | .idle => true
  | .busy cmd p => ProgressWf s.acc cmd p
  | .waiting cmd p => decide (s.cfg.mode = .buffered) && ProgressWf s.acc cmd p

/-- The block's invariant. -/
structure BlockInv (s : State) : Prop where
  accumulator : s.acc.Wf
  stream : HoldsStream s
  engine : EngineWf s = true

/-- R58: a consumer that is blocked while bytes are in the sink is owed a token, or has it. -/
def NoLostWakeup (s : State) : Prop :=
  ∀ cmd p, s.engine = .waiting cmd p → s.sink ≠ [] → s.wake = true ∨ s.producer = .posting

/-- R24, R62: the sink's length is bounded by `SINK_CAPACITY`. -/
def SinkBounded (s : State) : Prop := ∀ capacity, s.cfg.sinkCapacity = some capacity → s.sink.length ≤ capacity

/-! ### Where a run rests -/

/-- The engine is blocked (R123). -/
def EngineBlocked (s : State) : Prop := ∃ cmd p, s.engine = .waiting cmd p ∧ s.wake = false

/-- The run is finished at this point (R156): the engine is idle, every command sent has its response, and in `BUFFERED`
every started `WRITE` has posted. It does not say what the source still holds, nor whether a `WRITE` is still to start.
DESIGN CHOICE (assumption 20): a command that a reset abandoned, which never gets a response (R142), is not counted. -/
def Finished (s : State) : Prop :=
  s.engine = .idle ∧ s.commands = [] ∧ (s.cfg.mode = .buffered → s.producer = .idle)

/-- A `WRITE` is pending (R156): one has started and its post is to come, or one is at its port (assumption 19). -/
def WritePending (s : State) : Prop := s.producer = .posting ∨ s.writes ≠ []

/-- The run is blocked at this point, not finished (R156): `engine = Waiting` and `wake = 0`, with no `WRITE` pending. -/
def RunBlocked (s : State) : Prop := EngineBlocked s ∧ ¬ WritePending s

/-- How many commands have been sent and not answered (R64, R75): those at the port, and the one in
progress. DESIGN CHOICE (assumption 20): one that a reset abandoned (R142) is not counted. -/
def State.unanswered (s : State) : Nat := s.commands.length + if s.engine = .idle then 0 else 1

/-! ### The commands of a family, by name -/

/-- The five peeks of R67, each with its width. -/
def peekForms (n : Word) : List (Nat × Instr) :=
  [(1, .peek1 n), (8, .peek8 n), (16, .peek16 n), (32, .peek32 n), (64, .peek64 n)]

/-- The five reads of R67, each with its width. -/
def readForms (n : Word) : List (Nat × Instr) :=
  [(1, .read1 n), (8, .read8 n), (16, .read16 n), (32, .read32 n), (64, .read64 n)]

/-- The ten width-typed commands of R67, each with its width. -/
def widthForms (n : Word) : List (Nat × Instr) := peekForms n ++ readForms n

/-- `n` passes both checks of R93 in this state: it is in `[1, w]`, and at most 56 unless the accumulator is aligned. -/
def Admitted (s : State) (w : Nat) (n : Word) : Prop :=
  1 ≤ n.toNat ∧ n.toNat ≤ w ∧ (n.toNat ≤ 56 ∨ s.acc.remaining % 8 = 0)

/-- The engine is idle and nothing interleaves with the instruction: it runs until it is answered or blocked. -/
def Uninterrupted (s : State) : Prop := s.engine = .idle ∧ s.turns = []

/-- The bits the block can still obtain without waiting for its environment: those held, and those of the bytes in the sink
(`BUFFERED`). -/
def State.sinkBits (s : State) : Nat := s.acc.remaining + 8 * s.sink.length

/-- A source that delivers all it has when asked (the greedy source of spec/40_accumulator.md) and has not yet said that it
is exhausted. -/
def Source.Greedy (src : Source) : Prop := src.ended = false ∧ src.choices = [] ∧ src.habit = .greedy

/-- The fill loop for `n` bits in `DIRECT` (R80, R83): from the accumulator `a` and the source `src`, the exchanges of the
list lead to `b` and `dst`. Each is made while fewer than `n` bits are held, asks for what fits, and is answered by the
source. `(0, OK)` means that the same request is made again (R43(b), the spec's decision D10); bytes are absorbed, whatever
status comes with them (R44); `(0, EndOfData)` ends the loop, so no exchange of the list is that. -/
def FillRun (n : Nat) (a : Acc) (src : Source) : List Exchange → Acc → Source → Prop
  | [], b, dst => b = a ∧ dst = src
  | e :: rest, b, dst =>
    a.remaining < n ∧ e.max = (64 - a.remaining) / 8 ∧
      (src.answer e.max).1 = e.bytes ∧ (src.answer e.max).2.1 = e.status ∧ ¬ (e.bytes = [] ∧ e.status = .endOfData) ∧
      FillRun n (a.absorb e.bytes) (src.answer e.max).2.2 rest b dst

end Sys2Proof.Machine
end

