-- ==== Sys2Proof/Certificates/Slice0/Obligations.lean ====
section
/-! DEFINITION. The statements for the provers: what the rules of spec/ say the block does. -/

open Sys2Proof Sys2Proof.Machine

/-! ### Encodings (spec/30_encoding.md) -/

/-- Decode and encode agree on every well-formed instruction, whatever its operand or data (R65, R67, R68, R74). -/
def Obligations.DecodeOfEncode : Prop :=
  ∀ (m : Mode) (i : Instr), i.wellFormed m = true → decode m i.port (encode i) = .instr i

/-- R74 "No encoding is decoded two ways": a word or transaction that decodes to an instruction is that instruction's own
encoding, at its own port, and the instruction is well-formed. -/
def Obligations.EncodeOfDecoded : Prop :=
  (∀ (m : Mode) (w : PortWord) (i : Instr), decodeCommand m w = .instr i →
    encode i = { word := w, data := [] } ∧ i.port = .command ∧ i.wellFormed m = true) ∧
  (∀ (m : Mode) (p : Packet) (i : Instr), decodeWrite m p = .instr i →
    encode i = p ∧ i.port = .producer ∧ i.wellFormed m = true)

/-- The command port's decoder reads exactly the command rows of spec/opcode_table.json. -/
def Obligations.CommandDecoderMatchesOpcodeTable : Prop :=
  ∀ (w : PortWord) (name : String),
    (∃ i, decodeCommand .buffered w = .instr i ∧ i.mnemonic = name) ↔
      ∃ r ∈ opcodeTable, r.port = .command ∧ r.covers w = true ∧ r.mnemonic = name

/-- R70, the command port: exactly the listed words are reserved. -/
def Obligations.ReservedCommandWords : Prop :=
  ∀ (m : Mode) (w : PortWord),
    (∃ r, decodeCommand m w = .reject r) ↔
      ((opField w).toNat = 0x00 ∨ (0x0B ≤ (opField w).toNat ∧ (opField w).toNat ≤ 0x0F) ∨
        (0x14 ≤ (opField w).toNat ∧ (opField w).toNat ≤ 0x1F) ∨ 0x21 ≤ (opField w).toNat ∨
        (m = .direct ∧ (opField w).toNat = 0x20) ∨
        (((opField w).toNat = 0x11 ∨ (opField w).toNat = 0x12 ∨ (opField w).toNat = 0x20) ∧ argField w ≠ 0))

/-- R70: "the run gets the refusal mark": a reserved word at either port is refused by the step that would take it. -/
def Obligations.ReservedWordsAreRefused : Prop :=
  (∀ (s : State) (w : PortWord) (rest : List PortWord) (r : Reject),
      nextTurn s = .engine → s.engine = .idle → s.commands = w :: rest → decodeCommand s.cfg.mode w = .reject r →
      step s = .refused (.reserved r)) ∧
  (∀ (s : State) (p : Packet) (rest : List Packet),
      nextTurn s = .producer → s.producer = .idle → s.writes = p :: rest → s.cfg.mode = .buffered →
      opField p.word ≠ 0x30 → step s = .refused (.reserved .notWriteHeader))

/-- Words written out from spec/95_test_vectors.md section 3 decode to the commands they stand for. -/
def Obligations.SpecWordsDecode : Prop :=
  decodeCommand .direct 0x040000000000000003 = .instr (.read8 3) ∧
  decodeCommand .direct 0x10FFFFFFFFFFFFFFFF = .instr (.skip 18446744073709551615) ∧
  decodeCommand .direct 0x110000000000000000 = .instr .align ∧
  decodeCommand .buffered 0x200000000000000000 = .instr .len ∧
  decodeWrite .buffered ⟨0x300000000000000003, [0x11, 0x22, 0x33]⟩ = .instr (.write [0x11, 0x22, 0x33])

/-! ### A step runs the decoded instruction -/

/-- A step runs the decoded instruction (R63, R65, R75; whose turn it is: assumption 5). At the engine's turn, with the engine
idle, the step is `exec` of the command at the head of the command port; at the producer's turn, with no `WRITE` in
progress, `exec` of the `WRITE` at the head of the producer port; each on the state with that transaction and that turn
used up. -/
def Obligations.StepRunsTheDecodedInstruction : Prop :=
  (∀ (s : State) (w : PortWord) (rest : List PortWord) (i : Instr),
    nextTurn s = .engine → s.engine = .idle → s.commands = w :: rest → decodeCommand s.cfg.mode w = .instr i →
    step s = exec i { s with commands := rest, turns := s.turns.tail }) ∧
  (∀ (s : State) (p : Packet) (rest : List Packet) (i : Instr),
    nextTurn s = .producer → s.producer = .idle → s.writes = p :: rest → decodeWrite s.cfg.mode p = .instr i →
    step s = exec i { s with writes := rest, turns := s.turns.tail })

/-- A command in progress goes on from where it stands: the step is the engine's next atomic step, after which the engine
runs on while no turn is listed (R27, R55, R113). The schedule is the model's, assumption 5. -/
def Obligations.StepResumesTheCommandInProgress : Prop :=
  ∀ (s : State), nextTurn s = .engine → s.engine ≠ .idle →
    step s =
      match engineStep { s with turns := s.turns.tail } with
      | .next t => runOn t
      | .fault r => .fault r
      | .refused r => .refused r

/-! ### Width-typed commands (R93 to R103) -/

/-- R126: a width-typed command with `n` outside `[1, w]` answers `WidthOverflow` and changes nothing else, whatever the
accumulator holds; and nothing but that is answered so: no command of another kind, and no `n` inside the range.
The response's value 0: R136, by the spec's decision D7, assumption 14. -/
def Obligations.WidthOverflowChangesNothing : Prop :=
  (∀ (s : State) (n : Word) (w : Nat) (cmd : Instr), (w, cmd) ∈ widthForms n → s.engine = .idle →
    (n.toNat = 0 ∨ w < n.toNat) →
    exec cmd s = .next { s with responses := s.responses ++ [⟨.widthOverflow, 0, []⟩] }) ∧
  (∀ (i : Instr) (s t : State) (rs : List Response) (r : Response), exec i s = .next t →
    t.responses = s.responses ++ rs → r ∈ rs → r.status = .widthOverflow →
    ∃ n w, (w, i) ∈ widthForms n ∧ (n.toNat = 0 ∨ w < n.toNat))

/-- R82, R127: `PEEK64` and `READ64` of 57 to 64 bits while not aligned answer `AlignmentOverflow` and change nothing else,
however many bits are held; and nothing but that is answered so.
The response's value 0: R136, by the spec's decision D7, assumption 14. -/
def Obligations.AlignmentOverflowChangesNothing : Prop :=
  (∀ (s : State) (n : Word) (cmd : Instr), (cmd = .peek64 n ∨ cmd = .read64 n) → s.engine = .idle →
    56 < n.toNat → n.toNat ≤ 64 → s.acc.remaining % 8 ≠ 0 →
    exec cmd s = .next { s with responses := s.responses ++ [⟨.alignmentOverflow, 0, []⟩] }) ∧
  (∀ (i : Instr) (s t : State) (rs : List Response) (r : Response), exec i s = .next t →
    t.responses = s.responses ++ rs → r ∈ rs → r.status = .alignmentOverflow →
    ∃ n, (i = .peek64 n ∨ i = .read64 n) ∧ 56 < n.toNat ∧ n.toNat ≤ 64 ∧ s.acc.remaining % 8 ≠ 0)

/-- R84, R85: a peek whose bits are held returns the top `n` bits of the buffer and changes nothing else. -/
def Obligations.PeekReturnsHeldBits : Prop :=
  ∀ (s : State) (n : Word) (w : Nat) (cmd : Instr), (w, cmd) ∈ peekForms n → s.engine = .idle →
    Admitted s w n → n.toNat ≤ s.acc.remaining →
    exec cmd s = .next { s with responses := s.responses ++ [⟨.ok, s.acc.buffer >>> (64 - n.toNat), []⟩] }

/-- R88: a read whose bits are held returns the top `n` bits of the buffer, shifts them out, and changes nothing else. -/
def Obligations.ReadReturnsAndConsumesHeldBits : Prop :=
  ∀ (s : State) (n : Word) (w : Nat) (cmd : Instr), (w, cmd) ∈ readForms n → s.engine = .idle →
    Admitted s w n → n.toNat ≤ s.acc.remaining →
    exec cmd s = .next { s with
      acc := { buffer := s.acc.buffer <<< n.toNat, remaining := s.acc.remaining - n.toNat }
      responses := s.responses ++ [⟨.ok, s.acc.buffer >>> (64 - n.toNat), []⟩] }

/-- R80, R83, R112: in `BUFFERED`, a peek that needs more bits than are held, and for which held and sunk bits suffice, pulls
once, up to the accumulator's capacity, and returns the top `n` bits of the filled buffer. The instruction runs
uninterrupted: the model's schedule, assumption 5. -/
def Obligations.PeekFillsFromTheSink : Prop :=
  ∀ (s : State) (n : Word) (w : Nat) (cmd : Instr), (w, cmd) ∈ peekForms n → Uninterrupted s →
    s.cfg.mode = .buffered → Admitted s w n → s.acc.remaining < n.toNat → n.toNat ≤ s.sinkBits →
    exec cmd s = .next { s with
      acc := s.acc.absorb (s.sink.take ((64 - s.acc.remaining) / 8))
      sink := s.sink.drop ((64 - s.acc.remaining) / 8)
      exchanges := s.exchanges ++
        [⟨(64 - s.acc.remaining) / 8, s.sink.take ((64 - s.acc.remaining) / 8), .ok⟩]
      responses := s.responses ++
        [⟨.ok, (s.acc.absorb (s.sink.take ((64 - s.acc.remaining) / 8))).buffer >>> (64 - n.toNat), []⟩] }

/-- R80, R88, R112: in `BUFFERED`, a read for which held and sunk bits suffice pulls once, returns the top `n` bits of the
filled buffer and shifts them out. The instruction runs uninterrupted: the model's schedule, assumption 5. -/
def Obligations.ReadFillsFromTheSink : Prop :=
  ∀ (s : State) (n : Word) (w : Nat) (cmd : Instr), (w, cmd) ∈ readForms n → Uninterrupted s →
    s.cfg.mode = .buffered → Admitted s w n → s.acc.remaining < n.toNat → n.toNat ≤ s.sinkBits →
    exec cmd s = .next { s with
      acc := (s.acc.absorb (s.sink.take ((64 - s.acc.remaining) / 8))).drop n.toNat
      sink := s.sink.drop ((64 - s.acc.remaining) / 8)
      exchanges := s.exchanges ++
        [⟨(64 - s.acc.remaining) / 8, s.sink.take ((64 - s.acc.remaining) / 8), .ok⟩]
      responses := s.responses ++
        [⟨.ok, (s.acc.absorb (s.sink.take ((64 - s.acc.remaining) / 8))).buffer >>> (64 - n.toNat), []⟩] }

/-- R80, R83, R90: in `DIRECT`, a peek fills until it holds its bits and returns the top `n` bits of the filled buffer,
however many `(0, OK)` answers (R43(b), the spec's decision D10) and fills that are too short (R83, R90) come before the
answer that suffices, and whatever status comes with the bytes (R44). The instruction runs uninterrupted: the model's
schedule, assumption 5. The second part is the retry as a single step (another turn is listed, assumption 5): a peek, a read
or a skip whose fill is answered `(0, OK)` keeps its accumulator and its progress, and the same request stays pending. -/
def Obligations.PeekFillsFromTheSource : Prop :=
  (∀ (s : State) (n : Word) (w : Nat) (cmd : Instr) (fills : List Exchange) (a : Acc) (src : Source),
    (w, cmd) ∈ peekForms n → Uninterrupted s → s.cfg.mode = .direct → Admitted s w n →
    FillRun n.toNat s.acc s.source fills a src → n.toNat ≤ a.remaining →
    exec cmd s = .next { s with
      acc := a
      source := src
      exchanges := s.exchanges ++ fills
      responses := s.responses ++ [⟨.ok, a.buffer >>> (64 - n.toNat), []⟩] }) ∧
  (∀ (s : State) (cmd : Instr) (p : Progress) (src : Source) (next : Turn) (rest : List Turn), BlockInv s →
    s.turns = .engine :: next :: rest → s.engine = .busy cmd p → s.cfg.mode = .direct →
    ((∃ got, p = .filling got) ∨ ∃ owed, p = .skipping owed) →
    s.source.answer ((64 - s.acc.remaining) / 8) = ([], .ok, src) →
    step s = .next { s with
      source := src
      exchanges := s.exchanges ++ [⟨(64 - s.acc.remaining) / 8, [], .ok⟩]
      turns := next :: rest })

/-- R80, R83, R88, R90: in `DIRECT`, a read fills until it holds its bits, returns the top `n` bits of the filled buffer and
shifts them out, however many `(0, OK)` answers (R43(b), the spec's decision D10) and fills that are too short come before
the answer that suffices, and whatever status comes with the bytes (R44).
The instruction runs uninterrupted: the model's schedule, assumption 5. -/
def Obligations.ReadFillsFromTheSource : Prop :=
  ∀ (s : State) (n : Word) (w : Nat) (cmd : Instr) (fills : List Exchange) (a : Acc) (src : Source),
    (w, cmd) ∈ readForms n → Uninterrupted s → s.cfg.mode = .direct → Admitted s w n →
    FillRun n.toNat s.acc s.source fills a src → n.toNat ≤ a.remaining →
    exec cmd s = .next { s with
      acc := a.drop n.toNat
      source := src
      exchanges := s.exchanges ++ fills
      responses := s.responses ++ [⟨.ok, a.buffer >>> (64 - n.toNat), []⟩] }

/-- R128(a), R129(a): in `DIRECT`, when the first fill is answered `(0, EndOfData)`, a peek answers `EndOfData` and a read
`UnexpectedEndOfData`, and the accumulator is unchanged, however many bits it holds.
The response's value 0: R136, by the spec's decision D7, assumption 14.
The instruction runs uninterrupted: the model's schedule, assumption 5. -/
def Obligations.ExhaustedSourceEndsWidthCommands : Prop :=
  ∀ (s : State) (n : Word) (w : Nat) (cmd : Instr) (src : Source),
    (w, cmd) ∈ widthForms n → Uninterrupted s →
    s.cfg.mode = .direct → Admitted s w n → s.acc.remaining < n.toNat →
    s.source.answer ((64 - s.acc.remaining) / 8) = ([], .endOfData, src) →
    exec cmd s = .next { s with
      source := src
      exchanges := s.exchanges ++ [⟨(64 - s.acc.remaining) / 8, [], .endOfData⟩]
      responses := s.responses ++
        [⟨if (w, cmd) ∈ readForms n then .unexpectedEndOfData else .endOfData, 0, []⟩] }

/-- R83, R89, R129(a), R129(c): in `DIRECT`, when a first fill brings too few bits and the next one is answered
`(0, EndOfData)`, the absorbed bytes stay, a read answers `UnexpectedEndOfData`, and a peek the status that
`PEEK_PARTIAL_EOF` names (`UnexpectedEndOfData` by the spec's choice, D8; assumption 13).
The response's value 0: R136, by the spec's decision D7, assumption 14.
The instruction runs uninterrupted: the model's schedule, assumption 5. -/
def Obligations.PartialFillKeepsItsBytes : Prop :=
  ∀ (s : State) (n : Word) (w : Nat) (cmd : Instr) (bytes : List Byte) (st : SrcStatus) (src src' : Source),
    (w, cmd) ∈ widthForms n → Uninterrupted s →
    s.cfg.mode = .direct → Admitted s w n →
    s.source.answer ((64 - s.acc.remaining) / 8) = (bytes, st, src) → bytes ≠ [] →
    s.acc.remaining + 8 * bytes.length < n.toNat →
    src.answer ((64 - (s.acc.remaining + 8 * bytes.length)) / 8) = ([], .endOfData, src') →
    exec cmd s = .next { s with
      acc := s.acc.absorb bytes
      source := src'
      exchanges := s.exchanges ++ [⟨(64 - s.acc.remaining) / 8, bytes, st⟩,
        ⟨(64 - (s.acc.remaining + 8 * bytes.length)) / 8, [], .endOfData⟩]
      responses := s.responses ++
        [⟨if (w, cmd) ∈ readForms n then .unexpectedEndOfData
          else if s.cfg.partialEof = .endOfData then .endOfData else .unexpectedEndOfData, 0, []⟩] }

/-- R112, R122: in `BUFFERED`, a width-typed command that needs a fill blocks on an empty sink; a stale token is taken on
the way, and nothing else changes. The instruction runs uninterrupted: the model's schedule, assumption 5. -/
def Obligations.WidthCommandBlocksOnEmptySink : Prop :=
  ∀ (s : State) (n : Word) (w : Nat) (cmd : Instr), (w, cmd) ∈ widthForms n → Uninterrupted s →
    s.cfg.mode = .buffered → Admitted s w n → s.acc.remaining < n.toNat → s.sink = [] →
    exec cmd s = .next { s with wake := false, engine := .waiting cmd (.filling 0) }

/-- R45, R46, R72: the value of a width-typed command answered `OK` is the `n` stream bits at the cursor, the first one the
most significant; a read moves the cursor past them and a peek leaves it. -/
def Obligations.WidthCommandsDeliverTheStream : Prop :=
  ∀ (s t : State) (n : Word) (w : Nat) (cmd : Instr) (v : Word) (d : List Byte),
    (w, cmd) ∈ widthForms n → BlockInv s → exec cmd s = .next t → t.responses = s.responses ++ [⟨.ok, v, d⟩] →
    v.toNat = streamValue t.taken s.cursor n.toNat ∧ d = [] ∧
      t.cursor = s.cursor + if (w, cmd) ∈ readForms n then n.toNat else 0

/-- R146: a width-typed command that is not answered `OK`, whether it fails or blocks, moves no cursor: every bit it took is
still held. -/
def Obligations.UnansweredWidthCommandsKeepTheCursor : Prop :=
  ∀ (s t : State) (n : Word) (w : Nat) (cmd : Instr),
    (w, cmd) ∈ widthForms n → BlockInv s → exec cmd s = .next t →
    (∀ v d, t.responses ≠ s.responses ++ [⟨.ok, v, d⟩]) →
    t.cursor = s.cursor ∧ t.acc.remaining = s.acc.remaining + 8 * (t.taken.length - s.taken.length)

/-- R85 "repeated `peek(n)` calls without an intervening `skip` return the same value", and the second makes no source
request. -/
def Obligations.PeekTwiceIsTheSame : Prop :=
  ∀ (s t : State) (n : Word) (w : Nat) (cmd : Instr) (r : Response),
    (w, cmd) ∈ peekForms n → exec cmd s = .next t → t.responses = s.responses ++ [r] → r.status = .ok →
    exec cmd t = .next { t with responses := t.responses ++ [r] }

/-- R108: `READw n` gives the status, the value and the end state of `PEEKw n` followed by `SKIP n`, and an `EndOfData` of the
peek is `UnexpectedEndOfData` for the read, with value 0. -/
def Obligations.ReadIsPeekThenSkip : Prop :=
  ∀ (s t : State) (n : Word) (k : Nat) (w : Nat) (peek read : Instr) (r : Response),
    (peekForms n)[k]? = some (w, peek) → (readForms n)[k]? = some (w, read) →
    exec peek s = .next t → t.responses = s.responses ++ [r] →
    (r.status = .ok →
      ∃ u, exec (.skip n) t = .next u ∧ u.responses = t.responses ++ [⟨.ok, 0, []⟩] ∧
        exec read s = .next { u with responses := s.responses ++ [r] }) ∧
    (r.status ≠ .ok →
      exec read s = .next { t with
        responses := s.responses ++
          [⟨if r.status = .endOfData then .unexpectedEndOfData else r.status, r.value, r.data⟩] })

/-! ### SKIP, ALIGN, IS_ALIGNED (R86, R87, R104 to R106) -/

/-- R86: a skip of no more bits than are held shifts them out, without a source request; `SKIP 0` changes nothing but its
response. -/
def Obligations.SkipConsumesHeldBits : Prop :=
  ∀ (s : State) (n : Word), s.engine = .idle → n.toNat ≤ s.acc.remaining →
    exec (.skip n) s = .next { s with
      acc := { buffer := s.acc.buffer <<< n.toNat, remaining := s.acc.remaining - n.toNat }
      responses := s.responses ++ [⟨.ok, 0, []⟩] }

/-- R86, R104 in `BUFFERED`: a skip for which held and sunk bits suffice completes, however many fills it takes; it moves the
cursor by `n`, takes bytes from the head of the sink only, and leaves everything else.
The instruction runs uninterrupted: the model's schedule, assumption 5. -/
def Obligations.SkipCompletesFromTheSink : Prop :=
  ∀ (s : State) (n : Word), BlockInv s → Uninterrupted s → s.cfg.mode = .buffered → n.toNat ≤ s.sinkBits →
    ∃ t k, exec (.skip n) s = .next t ∧ t.cursor = s.cursor + n.toNat ∧
      t.sink = s.sink.drop k ∧ t.taken = s.taken ++ s.sink.take k ∧
      t = { s with acc := t.acc, sink := t.sink, exchanges := t.exchanges, responses := s.responses ++ [⟨.ok, 0, []⟩] }

/-- R86, R104 in `DIRECT`, on a greedy source that holds enough: the skip completes, moves the cursor by `n`, takes the
source's bytes in order, and leaves everything else.
The instruction runs uninterrupted: the model's schedule, assumption 5. -/
def Obligations.SkipCompletesFromTheSource : Prop :=
  ∀ (s : State) (n : Word), BlockInv s → Uninterrupted s → s.cfg.mode = .direct → s.source.Greedy →
    n.toNat ≤ s.acc.remaining + 8 * s.source.stream.length →
    ∃ t k, exec (.skip n) s = .next t ∧ t.cursor = s.cursor + n.toNat ∧
      t.source.stream = s.source.stream.drop k ∧ t.taken = s.taken ++ s.source.stream.take k ∧
      t = { s with acc := t.acc, source := t.source, exchanges := t.exchanges,
                   responses := s.responses ++ [⟨.ok, 0, []⟩] }

/-- R87: a skip that owes more bits than a greedy source has left answers `UnexpectedEndOfData`; every bit is consumed and
the accumulator is empty. The response's value 0: R136, by the spec's decision D7, assumption 14.
The instruction runs uninterrupted: the model's schedule, assumption 5. -/
def Obligations.SkipRunsOutOfData : Prop :=
  ∀ (s : State) (n : Word), BlockInv s → Uninterrupted s → s.cfg.mode = .direct → s.source.Greedy →
    s.acc.remaining + 8 * s.source.stream.length < n.toNat →
    ∃ t, exec (.skip n) s = .next t ∧ t.responses = s.responses ++ [⟨.unexpectedEndOfData, 0, []⟩] ∧
      t.engine = .idle ∧ t.acc = { buffer := 0, remaining := 0 } ∧ t.source.stream = [] ∧
      t.taken = s.taken ++ s.source.stream

/-- `skip(k)` is skipping bit by bit (R86, spec/95_test_vectors.md X3): two skips in a row end in the state of one skip of
their sum. The instruction runs uninterrupted: the model's schedule, assumption 5. -/
def Obligations.SkipsAddUp : Prop :=
  ∀ (s t u : State) (a b : Word), a.toNat + b.toNat < 2 ^ 64 → Uninterrupted s →
    exec (.skip a) s = .next t → t.responses = s.responses ++ [⟨.ok, 0, []⟩] →
    exec (.skip b) t = .next u → u.responses = t.responses ++ [⟨.ok, 0, []⟩] →
    exec (.skip (a + b)) s = .next { u with responses := s.responses ++ [⟨.ok, 0, []⟩] }

/-- R112, R113: in `BUFFERED`, a skip of more bits than are held blocks on an empty sink, keeping the bits it still
owes. The instruction runs uninterrupted: the model's schedule, assumption 5. -/
def Obligations.SkipBlocksOnEmptySink : Prop :=
  ∀ (s : State) (n : Word), Uninterrupted s → s.cfg.mode = .buffered → s.acc.remaining < n.toNat →
    s.acc.remaining ≤ 64 → s.sink = [] →
    exec (.skip n) s = .next { s with
      acc := { buffer := s.acc.buffer <<< s.acc.remaining, remaining := 0 }
      wake := false
      engine := .waiting (.skip n) (.skipping (n.toNat - s.acc.remaining)) }

/-- R105: `ALIGN` (op `0x11`) always answers `OK` with the number of bits discarded, shifts them out, and changes nothing
else: neither source nor sink is touched. -/
def Obligations.AlignDiscardsThePartialByte : Prop :=
  (∀ m, decodeCommand m 0x110000000000000000 = .instr .align) ∧
  ∀ (s : State), s.engine = .idle →
    exec .align s = .next { s with
      acc := { buffer := s.acc.buffer <<< (s.acc.remaining % 8), remaining := s.acc.remaining - s.acc.remaining % 8 }
      responses := s.responses ++ [⟨.ok, BitVec.ofNat 64 (s.acc.remaining % 8), []⟩] }

/-- R106: `IS_ALIGNED` (op `0x12`) answers 1 or 0 and changes nothing else. -/
def Obligations.IsAlignedReadsTheDerivedFlag : Prop :=
  (∀ m, decodeCommand m 0x120000000000000000 = .instr .isAligned) ∧
  ∀ (s : State), s.engine = .idle →
    exec .isAligned s = .next { s with
      responses := s.responses ++ [⟨.ok, if s.acc.remaining % 8 = 0 then 1 else 0, []⟩] }

/-! ### READ_BYTES (R107, R109) -/

/-- R107: a byte read of no more bytes than are held discards the partial byte, returns the next `L` bytes and makes no source
request. -/
def Obligations.ReadBytesDrainsHeldBytes : Prop :=
  ∀ (s : State) (n : Word), s.engine = .idle → n.toNat ≤ s.acc.remaining / 8 →
    exec (.readBytes n) s = .next { s with
      acc := { buffer := s.acc.buffer <<< (s.acc.remaining % 8 + 8 * n.toNat)
               remaining := s.acc.remaining - (s.acc.remaining % 8 + 8 * n.toNat) }
      responses := s.responses ++ [⟨.ok, 0, (List.range n.toNat).map fun j =>
        (s.acc.buffer <<< (s.acc.remaining % 8 + 8 * j)).extractLsb' 56 8⟩] }

/-- R107 in `DIRECT`: a byte read of more bytes than are held drains them, makes one request for the rest, and answers with
every byte and the source's own status; a short answer is not retried, and the accumulator is empty.
The instruction runs uninterrupted: the model's schedule, assumption 5. -/
def Obligations.ReadBytesPassesThroughToTheSource : Prop :=
  ∀ (s : State) (n : Word) (bytes : List Byte) (st : SrcStatus) (src : Source), Uninterrupted s →
    s.cfg.mode = .direct → s.acc.remaining / 8 < n.toNat →
    s.source.answer (n.toNat - s.acc.remaining / 8) = (bytes, st, src) →
    exec (.readBytes n) s = .next { s with
      acc := { buffer := s.acc.buffer <<< s.acc.remaining, remaining := 0 }
      source := src
      exchanges := s.exchanges ++ [⟨n.toNat - s.acc.remaining / 8, bytes, st⟩]
      responses := s.responses ++
        [⟨if st = .ok then .ok else .endOfData, 0,
          ((List.range (s.acc.remaining / 8)).map fun j =>
            (s.acc.buffer <<< (s.acc.remaining % 8 + 8 * j)).extractLsb' 56 8) ++ bytes⟩] }

/-- R107 in `BUFFERED`: the one pass-through request takes what the sink holds, up to the rest of the byte read.
The instruction runs uninterrupted: the model's schedule, assumption 5. -/
def Obligations.ReadBytesPassesThroughToTheSink : Prop :=
  ∀ (s : State) (n : Word), Uninterrupted s → s.cfg.mode = .buffered → s.acc.remaining / 8 < n.toNat →
    s.sink ≠ [] →
    exec (.readBytes n) s = .next { s with
      acc := { buffer := s.acc.buffer <<< s.acc.remaining, remaining := 0 }
      sink := s.sink.drop (n.toNat - s.acc.remaining / 8)
      exchanges := s.exchanges ++
        [⟨n.toNat - s.acc.remaining / 8, s.sink.take (n.toNat - s.acc.remaining / 8), .ok⟩]
      responses := s.responses ++ [⟨.ok, 0,
        ((List.range (s.acc.remaining / 8)).map fun j =>
          (s.acc.buffer <<< (s.acc.remaining % 8 + 8 * j)).extractLsb' 56 8) ++
            s.sink.take (n.toNat - s.acc.remaining / 8)⟩] }

/-- R107, R112: in `BUFFERED` the pass-through blocks on an empty sink even when bytes were drained, and keeps them.
The instruction runs uninterrupted: the model's schedule, assumption 5. -/
def Obligations.ReadBytesBlocksOnEmptySink : Prop :=
  ∀ (s : State) (n : Word), Uninterrupted s → s.cfg.mode = .buffered → s.acc.remaining / 8 < n.toNat →
    s.sink = [] →
    exec (.readBytes n) s = .next { s with
      acc := { buffer := s.acc.buffer <<< s.acc.remaining, remaining := 0 }
      wake := false
      engine := .waiting (.readBytes n) (.passing
        ((List.range (s.acc.remaining / 8)).map fun j =>
          (s.acc.buffer <<< (s.acc.remaining % 8 + 8 * j)).extractLsb' 56 8)
        (n.toNat - s.acc.remaining / 8)) }

/-- R109: an answered byte read carries exactly the stream's bytes from the first byte boundary at or after the cursor, and
leaves the cursor just past them. -/
def Obligations.ReadBytesLandsOnTheByteBoundary : Prop :=
  ∀ (s t : State) (n : Word) (r : Response), BlockInv s → exec (.readBytes n) s = .next t →
    t.responses = s.responses ++ [r] →
    r.data = (t.taken.drop ((s.cursor + 7) / 8)).take r.data.length ∧ r.data.length ≤ n.toNat ∧
      t.cursor = 8 * ((s.cursor + 7) / 8 + r.data.length)

/-! ### LEN and WRITE (R115 to R117) -/

/-- R117: `LEN` answers the sink's length and changes nothing else; where no `u64` holds the length it still answers `OK`,
with a value the model leaves free (assumption 3). -/
def Obligations.LenCountsTheSink : Prop :=
  ∀ (s : State), s.engine = .idle → s.cfg.mode = .buffered →
    (s.sink.length < 2 ^ 64 →
      exec .len s = .next { s with responses := s.responses ++ [⟨.ok, BitVec.ofNat 64 s.sink.length, []⟩] }) ∧
    ∃ v, exec .len s = .next { s with responses := s.responses ++ [⟨.ok, v, []⟩] }

/-- R115: an uninterrupted `WRITE` that fits appends all its data and sets `wake`, and changes nothing else; it never waits
for the engine. The schedule is the model's, assumption 5. -/
def Obligations.WriteAppendsThenPosts : Prop :=
  ∀ (s : State) (data : List Byte), s.cfg.mode = .buffered → s.producer = .idle → s.turns = [] →
    (∀ capacity, s.cfg.sinkCapacity = some capacity → s.sink.length + data.length ≤ capacity) →
    exec (.write data) s = .next { s with sink := s.sink ++ data, wake := true }

/-- R56: while another turn is listed, the append and the post of a `WRITE` are two steps; the first leaves `wake` alone, and
the producer's next turn posts. The schedule is the model's, assumption 5. -/
def Obligations.AppendAndPostAreTwoSteps : Prop :=
  (∀ (s : State) (data : List Byte), s.cfg.mode = .buffered → s.producer = .idle → s.turns ≠ [] →
    (∀ capacity, s.cfg.sinkCapacity = some capacity → s.sink.length + data.length ≤ capacity) →
    exec (.write data) s = .next { s with sink := s.sink ++ data, producer := .posting }) ∧
  (∀ (s : State), nextTurn s = .producer → s.producer = .posting →
    step s = .next { s with wake := true, producer := .idle, turns := s.turns.tail })

/-- R121: two writes in a row leave one token and the bytes of both, in order.
The schedule is the model's, assumption 5. -/
def Obligations.WritesCoalesce : Prop :=
  ∀ (s t u : State) (a b : List Byte), s.turns = [] → exec (.write a) s = .next t → exec (.write b) t = .next u →
    u = { s with sink := s.sink ++ (a ++ b), wake := true }

/-- What the ports refuse of well-formed terms. R62: a `WRITE` that does not fit a finite capacity. R73: `LEN` in `DIRECT`.
The rest is the model's reading, assumption 10: a `WRITE` in `DIRECT`, where R65 and R73 give no producer port and no `WRITE`
format; a command while the engine is not `Idle`, which R75 says the port does not accept and item 15 of
spec/93_implementation_defined.md says is refused; and a `WRITE` while the producer has not posted its previous one, which
completes only with its post (R65, R115). -/
def Obligations.RefusedTransactions : Prop :=
  (∀ (s : State) (data : List Byte) (capacity : Nat), s.cfg.mode = .buffered → s.producer = .idle →
    s.cfg.sinkCapacity = some capacity → capacity < s.sink.length + data.length →
    exec (.write data) s = .refused .sinkFull) ∧
  (∀ (s : State) (data : List Byte), s.cfg.mode = .direct →
    exec (.write data) s = .refused (.reserved .noProducerPort)) ∧
  (∀ (s : State), s.cfg.mode = .direct → exec .len s = .refused (.reserved .lenInDirect)) ∧
  (∀ (s : State) (i : Instr), i.port = .command → s.engine ≠ .idle → i.wellFormed s.cfg.mode = true →
    exec i s = .refused (.portBusy .command)) ∧
  (∀ (s : State) (data : List Byte), s.cfg.mode = .buffered → s.producer = .posting →
    exec (.write data) s = .refused (.portBusy .producer))

/-! ### The engine and the wake flag (R51 to R54, R112, R113, R123, R124) -/

/-- R51, R54, R112, R113, as single steps (another turn is listed, assumption 5): a waiting engine's step takes the token and
keeps the command's progress, and a pull that fails only makes the engine wait, with its progress and without touching the
token. -/
def Obligations.TakeAndFailedPullKeepProgress : Prop :=
  (∀ (s : State) (cmd : Instr) (p : Progress) (next : Turn) (rest : List Turn),
    s.turns = .engine :: next :: rest → s.engine = .waiting cmd p → s.wake = true →
    step s = .next { s with wake := false, engine := .busy cmd p, turns := next :: rest }) ∧
  (∀ (s : State) (cmd : Instr) (p : Progress) (next : Turn) (rest : List Turn), BlockInv s →
    s.turns = .engine :: next :: rest → s.engine = .busy cmd p → s.cfg.mode = .buffered → s.sink = [] →
    step s = .next { s with engine := .waiting cmd p, turns := next :: rest })

/-- R123: a command in progress leaves the machine as it is at the engine's turn exactly when the engine is waiting with
`wake = 0`. That an agent without a step answers the same state is the model's choice, assumption 8, and the schedule is
the model's, assumption 5. -/
def Obligations.EngineHasNoStepExactlyWhenBlocked : Prop :=
  ∀ (s : State), BlockInv s → s.engine ≠ .idle → (engineTurn s = .next s ↔ EngineBlocked s)

/-- R113, R124: a command blocked in `BUFFERED` that has its token, and for which the sink now holds enough, completes in the
engine's next turn from where it stood, takes the token, and answers `OK`. The schedule is the model's, assumption 5. -/
def Obligations.WokenCommandCompletes : Prop :=
  ∀ (s : State) (cmd : Instr) (p : Progress), BlockInv s → s.engine = .waiting cmd p → s.wake = true → s.turns = [] →
    (match p with
      | .filling _ => count cmd ≤ s.sinkBits
      | .skipping owed => owed ≤ 8 * s.sink.length
      | .passing _ _ => s.sink ≠ []) →
    ∃ t v d, step s = .next t ∧ t.engine = .idle ∧ t.wake = false ∧ t.responses = s.responses ++ [⟨.ok, v, d⟩] ∧
      t.cursor = s.cursor +
        (match p with
          | .filling _ => if consumes cmd then count cmd else 0
          | .skipping owed => owed
          | .passing out _ => 8 * (d.length - out.length)) ∧
      (match p with
        | .filling _ => v.toNat = streamValue t.taken s.cursor (count cmd)
        | .skipping _ => v = 0
        | .passing out want => v = 0 ∧ d = out ++ s.sink.take want)

/-! ### Fill and the source (R43, R44, R80) -/

/-- R80, R45: fill packs each byte, its most significant bit first, just below the valid bits, which stay; the bits below
stay zero. -/
def Obligations.FillPacksBelowTheValidBits : Prop :=
  ∀ (a : Acc) (bytes : List Byte), a.Wf → a.remaining + 8 * bytes.length ≤ 64 →
    (a.absorb bytes).Wf ∧ (a.absorb bytes).remaining = a.remaining + 8 * bytes.length ∧
      (∀ i, i < a.remaining → (a.absorb bytes).buffer.getMsbD i = a.buffer.getMsbD i) ∧
      ∀ j, j < 8 * bytes.length → (a.absorb bytes).buffer.getMsbD (a.remaining + j) = streamBit bytes j

/-- R43 "A model admits exactly these answers". Every answer of the modelled source keeps the contract: at most `max` bytes, in
stream order, and after `(0, EndOfData)` nothing else. And every answer of at most `max` bytes, with either status and any
continuation that keeps the contract, is one that some modelled source gives (assumption 4). -/
def Obligations.SourceAnswersAreTheContractsAnswers : Prop :=
  (∀ (src after : Source) (max : Nat) (bytes : List Byte) (st : SrcStatus), src.answer max = (bytes, st, after) →
    bytes.length ≤ max ∧ bytes ++ after.stream = src.stream ∧
      (bytes = [] → st = .endOfData → after.ended = true) ∧
      (src.ended = true → bytes = [] ∧ st = .endOfData ∧ after = src)) ∧
  (∀ (max : Nat) (bytes : List Byte) (st : SrcStatus) (after : Source), bytes.length ≤ max →
    (after.ended = true ↔ bytes = [] ∧ st = .endOfData) →
    ∃ src : Source, src.ended = false ∧ src.answer max = (bytes, st, after))

/-! ### Reset (R35, R140 to R142) -/

/-- R35: the values of the block's state at reset. -/
def Obligations.ResetValues : Prop :=
  State.reset.acc = { buffer := 0, remaining := 0 } ∧ State.reset.sink = [] ∧ State.reset.wake = false ∧
    State.reset.engine = .idle

/-- R140 to R142: the reset input gives every piece of the block's state its reset value, abandons a command without a
response, and touches neither the configuration nor, but for the ignored answer of a request in flight, the source.
A request is in flight in `DIRECT` while the engine is busy: the source is then the one after its answer to that request, and
otherwise it is as it was; either way it loses bytes from the head of its stream only. That this answer is given and lost,
and that a `WRITE` in progress is over, are the model's reading, assumption 6. -/
def Obligations.ResetInputResetsTheBlock : Prop :=
  ∀ (s : State) (rest : List Turn), s.turns = .reset :: rest →
    ∃ src, step s = .next { s with
        acc := { buffer := 0, remaining := 0 }, sink := [], wake := false, engine := .idle, producer := .idle,
        source := src, turns := rest, exchanges := [] } ∧
      (∀ cmd p, s.cfg.mode = .direct → s.engine = .busy cmd p →
        src = (s.source.answer
          (match p with
            | .filling _ => (64 - s.acc.remaining) / 8
            | .skipping _ => (64 - s.acc.remaining) / 8
            | .passing _ want => want)).2.2) ∧
      (s.cfg.mode = .buffered ∨ (∀ cmd p, s.engine ≠ .busy cmd p) → src = s.source) ∧
      ∃ lost, s.source.stream = lost ++ src.stream

/-! ### The whole machine -/

/-- The block's invariant holds at reset, in every configuration and on every source. -/
def Obligations.InvariantHoldsAtReset : Prop :=
  ∀ (cfg : Config) (src : Source), BlockInv (State.fresh cfg src) ∧ NoLostWakeup (State.fresh cfg src) ∧
    SinkBounded (State.fresh cfg src)

/-- R16, R22, R23, R37, R38: every step keeps the invariant: the accumulator holds at most 64 bits, zeros below them, and
they are the last bits of the taken stream, in order. -/
def Obligations.StepKeepsTheInvariant : Prop :=
  ∀ (s t : State), BlockInv s → step s = .next t → BlockInv t

/-- R58 "No lost wakeup": every step keeps it that a consumer blocked while bytes are in the sink has a token or is owed one
by a `WRITE` whose post is to come. -/
def Obligations.StepKeepsNoLostWakeup : Prop :=
  ∀ (s t : State), NoLostWakeup s → step s = .next t → NoLostWakeup t

/-- R31, R24, R62: no step changes the configuration, and every step keeps the sink within its capacity. -/
def Obligations.StepKeepsTheConfigurationAndItsBound : Prop :=
  ∀ (s t : State), step s = .next t → t.cfg = s.cfg ∧ (SinkBounded s → SinkBounded t)

/-- R81: no step from a state that meets the invariant asks for a fill of no bytes, so none faults. -/
def Obligations.StepNeverFaults : Prop :=
  ∀ (s : State) (f : Fault), BlockInv s → step s ≠ .fault f

/-- R64, R75: every accepted command is answered exactly once and in order: but for a reset, a step conserves the number of
commands unanswered plus responses given, and only adds responses at the end. -/
def Obligations.EveryCommandIsAnsweredOnce : Prop :=
  ∀ (s t : State), nextTurn s ≠ .reset → step s = .next t →
    t.unanswered + t.responses.length = s.unanswered + s.responses.length ∧
      ∃ rs, t.responses = s.responses ++ rs ∧ rs.length ≤ 1

/-- R118 "No response carries `InsufficientData`": no step answers a command with it. -/
def Obligations.InsufficientDataIsNeverSurfaced : Prop :=
  ∀ (s t : State) (rs : List Response) (r : Response), step s = .next t →
    t.responses = s.responses ++ rs → r ∈ rs → r.status ≠ .insufficientData

/-- R119, R136: in `BUFFERED` no response carries `EndOfData` or `UnexpectedEndOfData`; and in either mode a response with a
status other than `OK` carries the value 0 (the spec's decision D7). -/
def Obligations.StatusesOnTheResponsePort : Prop :=
  ∀ (s t : State) (rs : List Response) (r : Response), BlockInv s → step s = .next t →
    t.responses = s.responses ++ rs → r ∈ rs →
    (s.cfg.mode = .buffered → r.status ≠ .endOfData ∧ r.status ≠ .unexpectedEndOfData) ∧
      (r.status ≠ .ok → r.value = 0)

/-- R37 "The cursor never decreases": but for a reset, a step only extends the taken stream and moves the cursor only
forward. -/
def Obligations.CursorNeverDecreases : Prop :=
  ∀ (s t : State), BlockInv s → nextTurn s ≠ .reset → step s = .next t →
    s.cursor ≤ t.cursor ∧ ∃ more, t.taken = s.taken ++ more

/-- R24, R39: in `BUFFERED` the sink is a queue: the engine's turn moves bytes from its head to the taken stream, in order
and none lost, and the producer's turn appends the whole data of the `WRITE` it starts, and nothing else. -/
def Obligations.SinkIsAQueue : Prop :=
  ∀ (s t : State), s.cfg.mode = .buffered → step s = .next t →
    (nextTurn s = .engine → t.taken ++ t.sink = s.taken ++ s.sink) ∧
    (nextTurn s = .producer → t.taken = s.taken ∧
      t.sink = s.sink ++
        (match s.producer, s.writes with
          | .idle, p :: _ => p.data
          | _, _ => []))

/-- R16, R34, R43(d): in `DIRECT` the engine's turn moves bytes from the source to the taken stream, in order and none lost,
and touches neither `sink` nor `wake`. -/
def Obligations.SourceBytesAreTakenInOrder : Prop :=
  ∀ (s t : State), BlockInv s → s.cfg.mode = .direct → nextTurn s = .engine → step s = .next t →
    t.taken ++ t.source.stream = s.taken ++ s.source.stream ∧ t.sink = s.sink ∧ t.wake = s.wake

/-- R34, the frame of the consumer's commands: none writes the configuration, the producer, the ports or the schedule; in
`DIRECT` none writes `sink` or `wake`, and in `BUFFERED` none touches the source and none sets `wake`. -/
def Obligations.ConsumerCommandFrame : Prop :=
  ∀ (i : Instr) (s t : State), i.port = .command → exec i s = .next t →
    t.cfg = s.cfg ∧ t.producer = s.producer ∧ t.commands = s.commands ∧ t.writes = s.writes ∧ t.turns = s.turns ∧
      (s.cfg.mode = .direct → t.sink = s.sink ∧ t.wake = s.wake) ∧
      (s.cfg.mode = .buffered → t.source = s.source ∧ (t.wake = true → s.wake = true))
end

