-- ==== Sys2Proof/Laws/Acc.lean ====
section
/-! SUPPORT. The accumulator's operations (spec/40_accumulator.md): what fill, peek and skip do to the count and to each
bit, and that they keep R22 and R23. -/

namespace Sys2Proof.Machine

/-! ### Skip's shift -/

@[simp] theorem Acc.drop_remaining (a : Acc) (k : Nat) : (a.drop k).remaining = a.remaining - k := rfl

@[simp] theorem Acc.drop_buffer (a : Acc) (k : Nat) : (a.drop k).buffer = a.buffer <<< k := rfl

theorem Acc.drop_zero (a : Acc) : a.drop 0 = a := by
  simp [Acc.drop]

/-- Two skips in a row are one skip of their sum (R86). -/
theorem Acc.drop_drop (a : Acc) (j k : Nat) : (a.drop j).drop k = a.drop (j + k) := by
  simp [Acc.drop, BitVec.shiftLeft_add, Nat.sub_sub]

theorem Acc.drop_getMsbD (a : Acc) (k i : Nat) : (a.drop k).buffer.getMsbD i = a.buffer.getMsbD (i + k) := by
  simp [Acc.drop, BitVec.getMsbD_shiftLeft]

/-- Skip keeps R22 and R23. -/
theorem Acc.drop_wf {a : Acc} (h : a.Wf) {k : Nat} (hk : k ≤ a.remaining) : (a.drop k).Wf := by
  refine ⟨by have := h.1; simp; omega, fun i hi => ?_⟩
  simp only [Acc.drop, BitVec.getLsbD_shiftLeft]
  by_cases hik : i < k
  · simp [hik]
  · have := h.2 (i - k) (by simp [Acc.drop] at hi; omega)
    simp [this]

/-- An accumulator whose bits are all skipped is empty (R87). -/
theorem Acc.drop_all {a : Acc} (h : a.Wf) : a.drop a.remaining = { buffer := 0, remaining := 0 } := by
  have hb : a.buffer <<< a.remaining = 0 := by
    apply BitVec.eq_of_getLsbD_eq
    intro i hi
    have := h.2 (i - a.remaining)
    simp only [BitVec.getLsbD_shiftLeft]
    by_cases hlt : i < a.remaining
    · simp [hlt]
    · rw [this (by omega)]; simp
  simp [Acc.drop, hb]

/-! ### Peek's extraction -/

/-- R84: the masked shift is the plain shift. -/
theorem Acc.top_eq (a : Acc) (n : Nat) : a.top n = a.buffer >>> (64 - n) := by
  apply BitVec.eq_of_getLsbD_eq
  intro i hi
  simp only [Acc.top, BitVec.getLsbD_ushiftRight, BitVec.getLsbD_and, BitVec.getLsbD_shiftLeft,
    BitVec.getLsbD_allOnes]
  by_cases h : 64 - n + i < 64
  · simp [h]
    intro _
    omega
  · simp [BitVec.getLsbD_of_ge _ _ (Nat.le_of_not_lt h)]

/-- The extracted value's bits: the first stream bit is its bit `n - 1` (R46). -/
theorem Acc.top_getLsbD (a : Acc) {n : Nat} (hn : n ≤ 64) (i : Nat) :
    (a.top n).getLsbD i = (decide (i < n) && a.buffer.getMsbD (n - 1 - i)) := by
  rw [Acc.top_eq, BitVec.getLsbD_ushiftRight]
  by_cases h : i < n
  · have h1 : n - 1 - i < 64 := by omega
    have h2 : 64 - 1 - (n - 1 - i) = 64 - n + i := by omega
    simp [BitVec.getMsbD, h, h1, h2]
  · simp [h, BitVec.getLsbD_of_ge _ _ (show 64 ≤ 64 - n + i by omega)]

/-! ### Fill's packing -/

theorem byteOnes_getLsbD (j : Nat) : (0xFF : Word).getLsbD j = decide (j < 8) := by
  by_cases hj : j < 64
  · revert hj; revert j; decide
  · rw [BitVec.getLsbD_of_ge _ _ (Nat.le_of_not_lt hj)]; simp; omega

/-- The byte field that fill writes: bits `low` to `low + 7`. -/
theorem byteMask_getLsbD (low i : Nat) :
    ((0xFF : Word) <<< low).getLsbD i = (decide (i < 64) && (decide (low ≤ i) && decide (i - low < 8))) := by
  rw [BitVec.getLsbD_shiftLeft, byteOnes_getLsbD]
  by_cases h : i < low
  · simp [h]
  · simp [h, Nat.le_of_not_lt h]

@[simp] theorem Acc.absorbByte_remaining (a : Acc) (b : Byte) : (a.absorbByte b).remaining = a.remaining + 8 := rfl

/-- One packing round (R80), bit by bit from the top: the valid bits stay, the byte follows them, most significant bit
first, and the rest is as it was. -/
theorem Acc.absorbByte_getMsbD {a : Acc} (h : a.remaining ≤ 56) (b : Byte) {i : Nat} (hi : i < 64) :
    (a.absorbByte b).buffer.getMsbD i =
      if i < a.remaining then a.buffer.getMsbD i
      else if i < a.remaining + 8 then b.getLsbD (7 - (i - a.remaining)) else a.buffer.getMsbD i := by
  have hm := byteMask_getLsbD (56 - a.remaining) (64 - 1 - i)
  simp only [Acc.absorbByte, BitVec.getMsbD, hi, decide_true, Bool.true_and, BitVec.getLsbD_or, BitVec.getLsbD_and,
    BitVec.getLsbD_not, hm]
  simp only [BitVec.getLsbD_shiftLeft, BitVec.getLsbD_setWidth, show 64 - 1 - i < 64 by omega, decide_true,
    Bool.true_and]
  by_cases h1 : i < a.remaining
  · have e1 : ¬ (64 - 1 - i - (56 - a.remaining) < 8) := by omega
    have e2 : b.getLsbD (64 - 1 - i - (56 - a.remaining)) = false := BitVec.getLsbD_of_ge _ _ (by omega)
    simp only [h1, e1, e2, decide_false, Bool.and_false, Bool.not_false, Bool.and_true, Bool.or_false, if_true]
  · by_cases h2 : i < a.remaining + 8
    · have e2 : 56 - a.remaining ≤ 64 - 1 - i := by omega
      have e3 : ¬ (64 - 1 - i < 56 - a.remaining) := by omega
      have e4 : 64 - 1 - i - (56 - a.remaining) = 7 - (i - a.remaining) := by omega
      have e5 : 7 - (i - a.remaining) < 8 := by omega
      have e6 : 7 - (i - a.remaining) < 64 := by omega
      simp only [e4, h1, h2, e2, e3, e5, e6, decide_true, decide_false, Bool.and_self, Bool.not_true, Bool.and_false,
        Bool.not_false, Bool.true_and, Bool.false_or, if_true, if_false]
    · have e2 : ¬ (56 - a.remaining ≤ 64 - 1 - i) := by omega
      have e3 : 64 - 1 - i < 56 - a.remaining := by omega
      simp only [h1, h2, e2, e3, decide_true, decide_false, Bool.false_and, Bool.not_true, Bool.not_false, Bool.and_true,
        Bool.or_false, if_false]

/-- R23 in terms of `getMsbD`. -/
theorem Acc.wf_iff_getMsbD (a : Acc) :
    a.Wf ↔ a.remaining ≤ 64 ∧ ∀ i, a.remaining ≤ i → a.buffer.getMsbD i = false := by
  constructor
  · rintro ⟨h1, h2⟩
    refine ⟨h1, fun i hi => ?_⟩
    by_cases h : i < 64
    · simp [BitVec.getMsbD, h, h2 (64 - 1 - i) (by omega)]
    · simp [BitVec.getMsbD, h]
  · rintro ⟨h1, h2⟩
    refine ⟨h1, fun i hi => ?_⟩
    have := h2 (64 - 1 - i) (by omega)
    have e : 64 - 1 - (64 - 1 - i) = i := by omega
    rw [BitVec.getMsbD] at this
    rw [e] at this
    simpa [show 64 - 1 - i < 64 by omega] using this

/-- One packing round keeps R22 and R23. -/
theorem Acc.absorbByte_wf {a : Acc} (h : a.Wf) (hr : a.remaining ≤ 56) (b : Byte) : (a.absorbByte b).Wf := by
  rw [Acc.wf_iff_getMsbD] at *
  refine ⟨by simp; omega, fun i hi => ?_⟩
  simp only [Acc.absorbByte_remaining] at hi
  by_cases hlt : i < 64
  · rw [Acc.absorbByte_getMsbD hr b hlt, if_neg (by omega), if_neg (by omega)]
    exact h.2 i (by omega)
  · simp [BitVec.getMsbD, hlt]

@[simp] theorem Acc.absorb_nil (a : Acc) : a.absorb [] = a := rfl

@[simp] theorem Acc.absorb_cons (a : Acc) (b : Byte) (bs : List Byte) :
    a.absorb (b :: bs) = (a.absorbByte b).absorb bs := rfl

/-- Fill adds 8 to `remaining` per byte absorbed (R80). -/
@[simp] theorem Acc.absorb_remaining (a : Acc) (bs : List Byte) :
    (a.absorb bs).remaining = a.remaining + 8 * bs.length := by
  induction bs generalizing a with
  | nil => simp
  | cons b bs ih => simp [ih]; omega

theorem streamBit_cons_lt (b : Byte) (bs : List Byte) {j : Nat} (h : j < 8) :
    streamBit (b :: bs) j = b.getLsbD (7 - j) := by
  have h0 : j / 8 = 0 := by omega
  have h1 : j % 8 = j := by omega
  simp [streamBit, h0, h1]

theorem streamBit_cons_add (b : Byte) (bs : List Byte) (j : Nat) : streamBit (b :: bs) (8 + j) = streamBit bs j := by
  have h0 : (8 + j) / 8 = j / 8 + 1 := by omega
  have h1 : (8 + j) % 8 = j % 8 := by omega
  simp [streamBit, h0, h1]

/-- Bytes that follow do not change the bits of a stream. -/
theorem streamBit_append_left (xs ys : List Byte) {c : Nat} (h : c < 8 * xs.length) :
    streamBit (xs ++ ys) c = streamBit xs c := by
  have : c / 8 < xs.length := by omega
  simp [streamBit, List.getElem?_append_left this]

/-- The bits of a second stream follow those of the first. -/
theorem streamBit_append_right (xs ys : List Byte) (j : Nat) :
    streamBit (xs ++ ys) (8 * xs.length + j) = streamBit ys j := by
  have h0 : (8 * xs.length + j) / 8 = xs.length + j / 8 := by omega
  have h1 : (8 * xs.length + j) % 8 = j % 8 := by omega
  have h2 : (xs ++ ys)[xs.length + j / 8]? = ys[j / 8]? := by
    rw [List.getElem?_append_right (by omega)]; simp
  simp [streamBit, h0, h1, h2]

/-- Fill's packing of a whole answer (R80), bit by bit from the top. -/
theorem Acc.absorb_getMsbD (bs : List Byte) {a : Acc} (h : a.remaining + 8 * bs.length ≤ 64) {i : Nat} (hi : i < 64) :
    (a.absorb bs).buffer.getMsbD i =
      if i < a.remaining then a.buffer.getMsbD i
      else if i < a.remaining + 8 * bs.length then streamBit bs (i - a.remaining) else a.buffer.getMsbD i := by
  induction bs generalizing a with
  | nil => simp; intros; omega
  | cons b bs ih =>
    simp only [List.length_cons] at h ⊢
    have hr : a.remaining ≤ 56 := by omega
    rw [Acc.absorb_cons, ih (by simp; omega), Acc.absorbByte_getMsbD hr b hi, Acc.absorbByte_remaining]
    by_cases h1 : i < a.remaining
    · simp [h1, show i < a.remaining + 8 by omega]
    · by_cases h2 : i < a.remaining + 8
      · rw [if_pos h2, if_neg h1, if_pos h2, if_neg h1, if_pos (by omega), streamBit_cons_lt _ _ (by omega)]
      · by_cases h3 : i < a.remaining + 8 + 8 * bs.length
        · have e : i - a.remaining = 8 + (i - (a.remaining + 8)) := by omega
          rw [if_neg h2, if_pos h3, if_neg h1, if_pos (by omega), e, streamBit_cons_add]
        · rw [if_neg h2, if_neg h3, if_neg h1, if_neg h2, if_neg h1, if_neg (by omega)]

/-- Fill keeps R22 and R23 while its bytes fit (R38). -/
theorem Acc.absorb_wf (bs : List Byte) {a : Acc} (h : a.Wf) (hr : a.remaining + 8 * bs.length ≤ 64) :
    (a.absorb bs).Wf := by
  induction bs generalizing a with
  | nil => exact h
  | cons b bs ih =>
    simp only [List.length_cons] at hr
    exact ih (Acc.absorbByte_wf h (by omega) b) (by simp; omega)

/-! ### Fill's capacity -/

/-- R38: what fill asks for always fits. -/
theorem Acc.cap_fits {a : Acc} (h : a.remaining ≤ 64) : a.remaining + 8 * a.cap ≤ 64 := by
  unfold Acc.cap; omega

/-- R81: a fill that a peek of `n` admitted bits needs has room for a byte. -/
theorem Acc.cap_pos {a : Acc} {n : Nat} (hn : n ≤ 64) (hal : n ≤ 56 ∨ a.remaining % 8 = 0) (h : a.remaining < n) :
    0 < a.cap := by
  unfold Acc.cap; omega

/-- R90: a full fill is always enough for an admitted peek. -/
theorem Acc.cap_enough {a : Acc} {n : Nat} (hn : n ≤ 64) (hal : n ≤ 56 ∨ a.remaining % 8 = 0) (h : a.remaining < n) :
    n ≤ a.remaining + 8 * a.cap := by
  unfold Acc.cap; omega

/-! ### The byte read's drain -/

theorem Acc.top_byte (a : Acc) : (a.top 8).setWidth 8 = a.buffer.extractLsb' 56 8 := by
  rw [Acc.top_eq]
  apply BitVec.eq_of_getLsbD_eq
  intro i hi
  simp [hi]

/-- The drain (R107): `d` bytes from the top of the buffer, which it shifts out. -/
theorem Acc.drain_eq (d : Nat) (a : Acc) :
    a.drain d =
      ((List.range d).map fun j => (a.buffer <<< (8 * j)).extractLsb' 56 8, a.drop (8 * d)) := by
  induction d generalizing a with
  | zero => simp [Acc.drain, Acc.drop_zero]
  | succ d ih =>
    have e : 8 + 8 * d = 8 * (d + 1) := by omega
    rw [Acc.drain, ih, Acc.drop_drop, e, List.range_succ_eq_map]
    simp only [Acc.top_byte, List.map_cons, List.map_map, Acc.drop_buffer, ← BitVec.shiftLeft_add]
    simp [Function.comp_def, Nat.mul_add, Nat.add_comm]

@[simp] theorem Acc.drain_length (d : Nat) (a : Acc) : (a.drain d).1.length = d := by
  simp [Acc.drain_eq]

end Sys2Proof.Machine
end

