-- ==== Sys2Proof/Laws/State.lean ====
section
/-! SUPPORT. What each named update of State does to each field: one lemma a field, true by rfl. -/

namespace Sys2Proof.Machine

/-! ### respond -/

@[simp] theorem respond_cfg (r : Response) (s : State) :
    (respond r s).cfg = s.cfg := rfl
@[simp] theorem respond_acc (r : Response) (s : State) :
    (respond r s).acc = s.acc := rfl
@[simp] theorem respond_sink (r : Response) (s : State) :
    (respond r s).sink = s.sink := rfl
@[simp] theorem respond_wake (r : Response) (s : State) :
    (respond r s).wake = s.wake := rfl
@[simp] theorem respond_engine (r : Response) (s : State) :
    (respond r s).engine = .idle := rfl
@[simp] theorem respond_producer (r : Response) (s : State) :
    (respond r s).producer = s.producer := rfl
@[simp] theorem respond_commands (r : Response) (s : State) :
    (respond r s).commands = s.commands := rfl
@[simp] theorem respond_writes (r : Response) (s : State) :
    (respond r s).writes = s.writes := rfl
@[simp] theorem respond_source (r : Response) (s : State) :
    (respond r s).source = s.source := rfl
@[simp] theorem respond_turns (r : Response) (s : State) :
    (respond r s).turns = s.turns := rfl
@[simp] theorem respond_responses (r : Response) (s : State) :
    (respond r s).responses = s.responses ++ [r] := rfl
@[simp] theorem respond_exchanges (r : Response) (s : State) :
    (respond r s).exchanges = s.exchanges := rfl

/-! ### finish -/

@[simp] theorem finish_cfg (v : Word) (s : State) :
    (finish v s).cfg = s.cfg := rfl
@[simp] theorem finish_acc (v : Word) (s : State) :
    (finish v s).acc = s.acc := rfl
@[simp] theorem finish_sink (v : Word) (s : State) :
    (finish v s).sink = s.sink := rfl
@[simp] theorem finish_wake (v : Word) (s : State) :
    (finish v s).wake = s.wake := rfl
@[simp] theorem finish_engine (v : Word) (s : State) :
    (finish v s).engine = .idle := rfl
@[simp] theorem finish_producer (v : Word) (s : State) :
    (finish v s).producer = s.producer := rfl
@[simp] theorem finish_commands (v : Word) (s : State) :
    (finish v s).commands = s.commands := rfl
@[simp] theorem finish_writes (v : Word) (s : State) :
    (finish v s).writes = s.writes := rfl
@[simp] theorem finish_source (v : Word) (s : State) :
    (finish v s).source = s.source := rfl
@[simp] theorem finish_turns (v : Word) (s : State) :
    (finish v s).turns = s.turns := rfl
@[simp] theorem finish_responses (v : Word) (s : State) :
    (finish v s).responses = s.responses ++ [{ status := .ok, value := v, data := [] }] := rfl
@[simp] theorem finish_exchanges (v : Word) (s : State) :
    (finish v s).exchanges = s.exchanges := rfl

/-! ### raise -/

@[simp] theorem raise_cfg (e : Status) (s : State) :
    (raise e s).cfg = s.cfg := rfl
@[simp] theorem raise_acc (e : Status) (s : State) :
    (raise e s).acc = s.acc := rfl
@[simp] theorem raise_sink (e : Status) (s : State) :
    (raise e s).sink = s.sink := rfl
@[simp] theorem raise_wake (e : Status) (s : State) :
    (raise e s).wake = s.wake := rfl
@[simp] theorem raise_engine (e : Status) (s : State) :
    (raise e s).engine = .idle := rfl
@[simp] theorem raise_producer (e : Status) (s : State) :
    (raise e s).producer = s.producer := rfl
@[simp] theorem raise_commands (e : Status) (s : State) :
    (raise e s).commands = s.commands := rfl
@[simp] theorem raise_writes (e : Status) (s : State) :
    (raise e s).writes = s.writes := rfl
@[simp] theorem raise_source (e : Status) (s : State) :
    (raise e s).source = s.source := rfl
@[simp] theorem raise_turns (e : Status) (s : State) :
    (raise e s).turns = s.turns := rfl
@[simp] theorem raise_responses (e : Status) (s : State) :
    (raise e s).responses = s.responses ++ [{ status := e, value := 0, data := [] }] := rfl
@[simp] theorem raise_exchanges (e : Status) (s : State) :
    (raise e s).exchanges = s.exchanges := rfl

/-! ### record -/

@[simp] theorem record_cfg (max : Nat) (bytes : List Byte) (st : SrcStatus) (s : State) :
    (record max bytes st s).cfg = s.cfg := rfl
@[simp] theorem record_acc (max : Nat) (bytes : List Byte) (st : SrcStatus) (s : State) :
    (record max bytes st s).acc = s.acc := rfl
@[simp] theorem record_sink (max : Nat) (bytes : List Byte) (st : SrcStatus) (s : State) :
    (record max bytes st s).sink = s.sink := rfl
@[simp] theorem record_wake (max : Nat) (bytes : List Byte) (st : SrcStatus) (s : State) :
    (record max bytes st s).wake = s.wake := rfl
@[simp] theorem record_engine (max : Nat) (bytes : List Byte) (st : SrcStatus) (s : State) :
    (record max bytes st s).engine = s.engine := rfl
@[simp] theorem record_producer (max : Nat) (bytes : List Byte) (st : SrcStatus) (s : State) :
    (record max bytes st s).producer = s.producer := rfl
@[simp] theorem record_commands (max : Nat) (bytes : List Byte) (st : SrcStatus) (s : State) :
    (record max bytes st s).commands = s.commands := rfl
@[simp] theorem record_writes (max : Nat) (bytes : List Byte) (st : SrcStatus) (s : State) :
    (record max bytes st s).writes = s.writes := rfl
@[simp] theorem record_source (max : Nat) (bytes : List Byte) (st : SrcStatus) (s : State) :
    (record max bytes st s).source = s.source := rfl
@[simp] theorem record_turns (max : Nat) (bytes : List Byte) (st : SrcStatus) (s : State) :
    (record max bytes st s).turns = s.turns := rfl
@[simp] theorem record_responses (max : Nat) (bytes : List Byte) (st : SrcStatus) (s : State) :
    (record max bytes st s).responses = s.responses := rfl
@[simp] theorem record_exchanges (max : Nat) (bytes : List Byte) (st : SrcStatus) (s : State) :
    (record max bytes st s).exchanges = s.exchanges ++ [{ max := max, bytes := bytes, status := st }] := rfl

/-! ### sinkAppend -/

@[simp] theorem sinkAppend_cfg (data : List Byte) (s : State) :
    (sinkAppend data s).cfg = s.cfg := rfl
@[simp] theorem sinkAppend_acc (data : List Byte) (s : State) :
    (sinkAppend data s).acc = s.acc := rfl
@[simp] theorem sinkAppend_sink (data : List Byte) (s : State) :
    (sinkAppend data s).sink = s.sink ++ data := rfl
@[simp] theorem sinkAppend_wake (data : List Byte) (s : State) :
    (sinkAppend data s).wake = s.wake := rfl
@[simp] theorem sinkAppend_engine (data : List Byte) (s : State) :
    (sinkAppend data s).engine = s.engine := rfl
@[simp] theorem sinkAppend_producer (data : List Byte) (s : State) :
    (sinkAppend data s).producer = s.producer := rfl
@[simp] theorem sinkAppend_commands (data : List Byte) (s : State) :
    (sinkAppend data s).commands = s.commands := rfl
@[simp] theorem sinkAppend_writes (data : List Byte) (s : State) :
    (sinkAppend data s).writes = s.writes := rfl
@[simp] theorem sinkAppend_source (data : List Byte) (s : State) :
    (sinkAppend data s).source = s.source := rfl
@[simp] theorem sinkAppend_turns (data : List Byte) (s : State) :
    (sinkAppend data s).turns = s.turns := rfl
@[simp] theorem sinkAppend_responses (data : List Byte) (s : State) :
    (sinkAppend data s).responses = s.responses := rfl
@[simp] theorem sinkAppend_exchanges (data : List Byte) (s : State) :
    (sinkAppend data s).exchanges = s.exchanges := rfl

/-! ### wakePost -/

@[simp] theorem wakePost_cfg (s : State) :
    (wakePost s).cfg = s.cfg := rfl
@[simp] theorem wakePost_acc (s : State) :
    (wakePost s).acc = s.acc := rfl
@[simp] theorem wakePost_sink (s : State) :
    (wakePost s).sink = s.sink := rfl
@[simp] theorem wakePost_wake (s : State) :
    (wakePost s).wake = true := rfl
@[simp] theorem wakePost_engine (s : State) :
    (wakePost s).engine = s.engine := rfl
@[simp] theorem wakePost_producer (s : State) :
    (wakePost s).producer = s.producer := rfl
@[simp] theorem wakePost_commands (s : State) :
    (wakePost s).commands = s.commands := rfl
@[simp] theorem wakePost_writes (s : State) :
    (wakePost s).writes = s.writes := rfl
@[simp] theorem wakePost_source (s : State) :
    (wakePost s).source = s.source := rfl
@[simp] theorem wakePost_turns (s : State) :
    (wakePost s).turns = s.turns := rfl
@[simp] theorem wakePost_responses (s : State) :
    (wakePost s).responses = s.responses := rfl
@[simp] theorem wakePost_exchanges (s : State) :
    (wakePost s).exchanges = s.exchanges := rfl

/-! ### wakeTake -/

@[simp] theorem wakeTake_cfg (s : State) :
    (wakeTake s).cfg = s.cfg := rfl
@[simp] theorem wakeTake_acc (s : State) :
    (wakeTake s).acc = s.acc := rfl
@[simp] theorem wakeTake_sink (s : State) :
    (wakeTake s).sink = s.sink := rfl
@[simp] theorem wakeTake_wake (s : State) :
    (wakeTake s).wake = false := rfl
@[simp] theorem wakeTake_engine (s : State) :
    (wakeTake s).engine = s.engine := rfl
@[simp] theorem wakeTake_producer (s : State) :
    (wakeTake s).producer = s.producer := rfl
@[simp] theorem wakeTake_commands (s : State) :
    (wakeTake s).commands = s.commands := rfl
@[simp] theorem wakeTake_writes (s : State) :
    (wakeTake s).writes = s.writes := rfl
@[simp] theorem wakeTake_source (s : State) :
    (wakeTake s).source = s.source := rfl
@[simp] theorem wakeTake_turns (s : State) :
    (wakeTake s).turns = s.turns := rfl
@[simp] theorem wakeTake_responses (s : State) :
    (wakeTake s).responses = s.responses := rfl
@[simp] theorem wakeTake_exchanges (s : State) :
    (wakeTake s).exchanges = s.exchanges := rfl

/-! ### popTurn -/

@[simp] theorem popTurn_cfg (s : State) :
    (popTurn s).cfg = s.cfg := rfl
@[simp] theorem popTurn_acc (s : State) :
    (popTurn s).acc = s.acc := rfl
@[simp] theorem popTurn_sink (s : State) :
    (popTurn s).sink = s.sink := rfl
@[simp] theorem popTurn_wake (s : State) :
    (popTurn s).wake = s.wake := rfl
@[simp] theorem popTurn_engine (s : State) :
    (popTurn s).engine = s.engine := rfl
@[simp] theorem popTurn_producer (s : State) :
    (popTurn s).producer = s.producer := rfl
@[simp] theorem popTurn_commands (s : State) :
    (popTurn s).commands = s.commands := rfl
@[simp] theorem popTurn_writes (s : State) :
    (popTurn s).writes = s.writes := rfl
@[simp] theorem popTurn_source (s : State) :
    (popTurn s).source = s.source := rfl
@[simp] theorem popTurn_turns (s : State) :
    (popTurn s).turns = s.turns.tail := rfl
@[simp] theorem popTurn_responses (s : State) :
    (popTurn s).responses = s.responses := rfl
@[simp] theorem popTurn_exchanges (s : State) :
    (popTurn s).exchanges = s.exchanges := rfl

/-! ### resetInput -/

@[simp] theorem resetInput_cfg (s : State) :
    (resetInput s).cfg = s.cfg := rfl
@[simp] theorem resetInput_acc (s : State) :
    (resetInput s).acc = { buffer := 0, remaining := 0 } := rfl
@[simp] theorem resetInput_sink (s : State) :
    (resetInput s).sink = [] := rfl
@[simp] theorem resetInput_wake (s : State) :
    (resetInput s).wake = false := rfl
@[simp] theorem resetInput_engine (s : State) :
    (resetInput s).engine = .idle := rfl
@[simp] theorem resetInput_producer (s : State) :
    (resetInput s).producer = .idle := rfl
@[simp] theorem resetInput_commands (s : State) :
    (resetInput s).commands = s.commands := rfl
@[simp] theorem resetInput_writes (s : State) :
    (resetInput s).writes = s.writes := rfl
@[simp] theorem resetInput_source (s : State) :
    (resetInput s).source = sourceAfterReset s := rfl
@[simp] theorem resetInput_turns (s : State) :
    (resetInput s).turns = s.turns := rfl
@[simp] theorem resetInput_responses (s : State) :
    (resetInput s).responses = s.responses := rfl
@[simp] theorem resetInput_exchanges (s : State) :
    (resetInput s).exchanges = [] := rfl

/-! ### The derived views -/

@[simp] theorem taken_record (max : Nat) (bytes : List Byte) (st : SrcStatus) (s : State) :
    (record max bytes st s).taken = s.taken ++ bytes := by
  simp [State.taken]

theorem taken_eq_of_exchanges {s t : State} (h : t.exchanges = s.exchanges) : t.taken = s.taken := by
  rw [State.taken, State.taken, h]

@[simp] theorem taken_respond (r : Response) (s : State) : (respond r s).taken = s.taken := rfl

@[simp] theorem taken_finish (v : Word) (s : State) : (finish v s).taken = s.taken := rfl

@[simp] theorem taken_raise (e : Status) (s : State) : (raise e s).taken = s.taken := rfl

@[simp] theorem taken_fresh (cfg : Config) (src : Source) : (State.fresh cfg src).taken = [] := rfl

end Sys2Proof.Machine
end

