-- ==== Sys2Proof/Laws/Flags.lean ====
section
/-! SUPPORT. The checks of R82, R93 and R106 as plain arithmetic. -/

namespace Sys2Proof.Machine

theorem Acc.aligned_iff (a : Acc) : a.aligned = true ↔ a.remaining % 8 = 0 := by
  simp [Acc.aligned]

theorem widthOverflow_iff (w n : Nat) : widthOverflow w n = true ↔ n = 0 ∨ w < n := by
  simp [widthOverflow]

theorem widthOverflow_false_iff (w n : Nat) : widthOverflow w n = false ↔ 1 ≤ n ∧ n ≤ w := by
  simp [widthOverflow]; omega

theorem alignmentOverflow_iff (a : Acc) (n : Nat) :
    alignmentOverflow a n = true ↔ 56 < n ∧ a.remaining % 8 ≠ 0 := by
  simp [alignmentOverflow, Acc.aligned]

theorem alignmentOverflow_false_iff (a : Acc) (n : Nat) :
    alignmentOverflow a n = false ↔ n ≤ 56 ∨ a.remaining % 8 = 0 := by
  rw [← Bool.not_eq_true, alignmentOverflow_iff]; omega

/-- Fill and skip by whole bytes keep the alignment (R26), so an admitted peek stays admitted while it fills. -/
theorem alignmentOverflow_absorb (a : Acc) (bs : List Byte) (n : Nat) :
    alignmentOverflow (a.absorb bs) n = alignmentOverflow a n := by
  have : (a.absorb bs).remaining % 8 = a.remaining % 8 := by
    have hr : ∀ bs (a : Acc), (a.absorb bs).remaining = a.remaining + 8 * bs.length := by
      intro bs
      induction bs with
      | nil => intro a; rfl
      | cons b bs ih => intro a; rw [Acc.absorb, ih]; simp [Acc.absorbByte]; omega
    rw [hr]; omega
  simp only [alignmentOverflow, Acc.aligned, this]

theorem resultWidth_le {cmd : Instr} {w : Nat} (h : resultWidth cmd = some w) : w ≤ 64 := by
  cases cmd <;> simp [resultWidth] at h <;> omega

end Sys2Proof.Machine
end

