-- ==== Sys2Proof/Laws/Engine.lean ====
section
/-! SUPPORT. The engine (spec/10_state.md R27, spec/42_buffered.md R112): what one atomic step can do, and how a run of
steps is unrolled or reasoned about by induction. -/

namespace Sys2Proof.Machine

/-! ### Local computation -/

/-- What the local computation of a command can do to a state: change the accumulator, and either answer or go on to a
`SrcRead` of the same command. -/
inductive LocalStep (cmd : Instr) (s : State) : State → Prop where
  | answered (a : Acc) (r : Response) : LocalStep cmd s (respond r { s with acc := a })
  | running (a : Acc) (p : Progress) : LocalStep cmd s { s with acc := a, engine := .busy cmd p }

theorem finishWidth_local (cmd : Instr) (s : State) : LocalStep cmd s (finishWidth cmd s) := by
  unfold finishWidth
  split
  · exact .answered (s.acc.drop (count cmd)) _
  · exact .answered s.acc _

theorem peekLoop_local (cmd : Instr) (got : Nat) (s : State) : LocalStep cmd s (peekLoop cmd got s) := by
  unfold peekLoop
  split
  · exact finishWidth_local cmd s
  · exact .running s.acc (.filling got)

theorem skipLoop_local (cmd : Instr) (owed : Nat) (s : State) : LocalStep cmd s (skipLoop cmd owed s) := by
  simp only [skipLoop]
  split
  · exact .answered (s.acc.drop (min owed s.acc.remaining)) _
  · exact .running (s.acc.drop (min owed s.acc.remaining)) _

theorem raise_local (cmd : Instr) (e : Status) (s : State) : LocalStep cmd s (raise e s) := .answered s.acc _

/-- A local step of the state in which the command is marked as running is one of the state itself. -/
theorem LocalStep.of_busy {cmd : Instr} {p : Progress} {a : Acc} {s t : State}
    (h : LocalStep cmd { s with acc := a, engine := .busy cmd p } t) : LocalStep cmd s t := by
  cases h with
  | answered a r => exact .answered a r
  | running a p => exact .running a p

theorem deliver_local (cmd : Instr) (p : Progress) (bytes : List Byte) (st : SrcStatus) (s : State) :
    LocalStep cmd s (deliver cmd p bytes st s) := by
  cases p with
  | filling got =>
    simp only [deliver, fillWith]
    split
    · cases st
      · exact .running s.acc (.filling got)
      · exact .answered s.acc _
    · exact LocalStep.of_busy (p := .filling got) (peekLoop_local cmd _ _)
  | skipping owed =>
    simp only [deliver, fillWith]
    split
    · cases st
      · exact .running s.acc (.skipping owed)
      · exact .answered s.acc _
    · exact LocalStep.of_busy (p := .skipping owed) (skipLoop_local cmd _ _)
  | passing out want => exact .answered s.acc _

/-! ### One atomic step -/

/-- The state in which a pull of at most `max` bytes has been taken from the head of the sink. -/
def pulled (max : Nat) (s : State) : State :=
  record max (s.sink.take max) .ok { s with sink := s.sink.drop max }

theorem pullStep_empty {s : State} (h : s.sink = []) (cmd : Instr) (p : Progress) :
    pullStep cmd p s = { s with engine := .waiting cmd p } := by
  simp [pullStep, sinkPull, h]

theorem pullStep_nonempty {s : State} (h : s.sink ≠ []) (cmd : Instr) (p : Progress) :
    pullStep cmd p s =
      deliver cmd p (s.sink.take (request s.acc p)) .ok (pulled (request s.acc p) s) := by
  simp [pullStep, sinkPull, h, pulled, record]

/-- Everything an atomic step of the engine can do. -/
inductive EngineMove (s : State) : State → Prop where
  | rests (h : engineReady s = false) : EngineMove s s
  | takes (cmd : Instr) (p : Progress) (he : s.engine = .waiting cmd p) (hw : s.wake = true) :
      EngineMove s { wakeTake s with engine := .busy cmd p }
  | asks (cmd : Instr) (p : Progress) (he : s.engine = .busy cmd p) (hr : request s.acc p ≠ 0)
      (hm : s.cfg.mode = .direct) : EngineMove s (directStep cmd p s)
  | blocks (cmd : Instr) (p : Progress) (he : s.engine = .busy cmd p) (hr : request s.acc p ≠ 0)
      (hm : s.cfg.mode = .buffered) (hs : s.sink = []) : EngineMove s { s with engine := .waiting cmd p }
  | pulls (cmd : Instr) (p : Progress) (he : s.engine = .busy cmd p) (hr : request s.acc p ≠ 0)
      (hm : s.cfg.mode = .buffered) (hs : s.sink ≠ []) :
      EngineMove s (deliver cmd p (s.sink.take (request s.acc p)) .ok (pulled (request s.acc p) s))

theorem engineStep_move {s t : State} (h : engineStep s = .next t) : EngineMove s t := by
  unfold engineStep at h
  split at h
  · rename_i he
    cases h
    exact .rests (by simp [engineReady, he])
  · rename_i cmd p he
    split at h
    · cases h
    · rename_i hr
      split at h
      · rename_i hm
        cases h
        exact .asks cmd p he hr hm
      · rename_i hm
        cases h
        by_cases hs : s.sink = []
        · rw [pullStep_empty hs]
          exact .blocks cmd p he hr hm hs
        · rw [pullStep_nonempty hs]
          exact .pulls cmd p he hr hm hs
  · rename_i cmd p he
    split at h
    · rename_i hw
      cases h
      exact .takes cmd p he hw
    · rename_i hw
      cases h
      exact .rests (by simpa [engineReady, he] using hw)

theorem engineStep_busy {s : State} {cmd : Instr} {p : Progress} (he : s.engine = .busy cmd p)
    (hr : request s.acc p ≠ 0) :
    engineStep s =
      match s.cfg.mode with
      | .direct => .next (directStep cmd p s)
      | .buffered => .next (pullStep cmd p s) := by
  cases hm : s.cfg.mode <;> simp [engineStep, he, hr, hm]

theorem engineStep_not_refused (s : State) (r : Refusal) : engineStep s ≠ .refused r := by
  unfold engineStep
  split
  · simp
  · split
    · simp
    · split <;> simp
  · split <;> simp

/-- The only fault: a fill that has no room (R81). -/
theorem engineStep_fault {s : State} {f : Fault} (h : engineStep s = .fault f) :
    ∃ cmd p, s.engine = .busy cmd p ∧ request s.acc p = 0 := by
  unfold engineStep at h
  split at h
  · cases h
  · rename_i cmd p he
    split at h
    · rename_i hr
      exact ⟨cmd, p, he, hr⟩
    · split at h <;> cases h
  · split at h <;> cases h

/-! ### A run of atomic steps -/

theorem engineRun_stops {s : State} (h : (engineReady s && s.turns.isEmpty) = false) (fuel : Nat) :
    engineRun fuel s = .next s := by
  cases fuel with
  | zero => rfl
  | succ fuel => simp only [engineRun, h]; rfl

theorem engineRun_idle {s : State} (h : s.engine = .idle) (fuel : Nat) : engineRun fuel s = .next s :=
  engineRun_stops (by simp [engineReady, h]) fuel

theorem engineRun_listed {s : State} (h : s.turns ≠ []) (fuel : Nat) : engineRun fuel s = .next s :=
  engineRun_stops (by simp [h]) fuel

theorem engineRun_goes_on {s t : State} (hr : engineReady s = true) (ht : s.turns = []) (h : engineStep s = .next t)
    (fuel : Nat) : engineRun (fuel + 1) s = engineRun fuel t := by
  simp [engineRun, hr, ht, h]

/-- What holds before a run and is kept by every atomic step holds after it. -/
theorem engineRun_induction {P : State → Prop} (hstep : ∀ s t, P s → engineStep s = .next t → P t) (fuel : Nat) :
    ∀ {s t : State}, P s → engineRun fuel s = .next t → P t := by
  induction fuel with
  | zero =>
    intro s t hp h
    cases h
    exact hp
  | succ fuel ih =>
    intro s t hp h
    rw [engineRun] at h
    split at h
    · split at h
      · rename_i u hu
        exact ih (hstep s u hp hu) h
      · cases h
      · cases h
    · cases h
      exact hp

theorem engineRun_not_refused (fuel : Nat) : ∀ (s : State) (r : Refusal), engineRun fuel s ≠ .refused r := by
  induction fuel with
  | zero => intro s r; simp [engineRun]
  | succ fuel ih =>
    intro s r
    rw [engineRun]
    split
    · split
      · exact ih _ r
      · simp
      · rename_i q hq
        exact absurd hq (engineStep_not_refused s q)
    · simp

/-- More fuel changes nothing about a run that has come to rest. -/
theorem engineRun_more_fuel (fuel : Nat) :
    ∀ {s t : State}, engineRun fuel s = .next t → (engineReady t && t.turns.isEmpty) = false →
      ∀ more, engineRun (fuel + more) s = .next t := by
  induction fuel with
  | zero =>
    intro s t h hrest more
    cases h
    exact engineRun_stops hrest _
  | succ fuel ih =>
    intro s t h hrest more
    have e : fuel + 1 + more = (fuel + more) + 1 := by omega
    rw [e, engineRun]
    rw [engineRun] at h
    split
    · rename_i hg
      rw [if_pos hg] at h
      split at h
      · exact ih h hrest more
      · cases h
      · cases h
    · rename_i hg
      rw [if_neg hg] at h
      exact h

/-- A busy engine that is not interrupted takes its pending `SrcRead` and goes on. -/
theorem engineRun_busy {s : State} {fuel : Nat} {cmd : Instr} {p : Progress} {o : Host.Outcome State Fault Refusal}
    (he : s.engine = .busy cmd p) (ht : s.turns = []) (hr : request s.acc p ≠ 0)
    (h : engineRun fuel (if s.cfg.mode = .direct then directStep cmd p s else pullStep cmd p s) = o) :
    engineRun (fuel + 1) s = o := by
  rw [← h]
  refine engineRun_goes_on (by simp [engineReady, he]) ht ?_ fuel
  rw [engineStep_busy he hr]
  cases s.cfg.mode <;> simp

/-- R112, R122: with nothing in the sink, a busy engine of `BUFFERED` that is not interrupted ends waiting without a token,
its command's progress kept. -/
theorem engineRun_blocks {s : State} {cmd : Instr} {p : Progress} (he : s.engine = .busy cmd p) (ht : s.turns = [])
    (hr : request s.acc p ≠ 0) (hm : s.cfg.mode = .buffered) (hs : s.sink = []) (fuel : Nat) :
    engineRun (fuel + 3) s = .next { s with wake := false, engine := .waiting cmd p } := by
  refine engineRun_busy he ht hr ?_
  rw [if_neg (by simp [hm]), pullStep_empty hs]
  cases hw : s.wake with
  | false => rw [engineRun_stops (by simp [engineReady])]
  | true =>
    let u : State := { s with wake := true, engine := .waiting cmd p }
    have hu : engineStep u = .next { s with wake := false, engine := .busy cmd p } := by simp [u, engineStep, wakeTake]
    refine (engineRun_goes_on (s := u) (by simp [u, engineReady]) ht hu (fuel + 1)).trans ?_
    refine engineRun_busy (cmd := cmd) (p := p) rfl ht hr ?_
    rw [if_neg (by simp [hm]), pullStep_empty (by simpa using hs)]
    exact engineRun_stops (by simp [engineReady]) _

theorem runOn_idle {s : State} (h : s.engine = .idle) : runOn s = .next s := engineRun_idle h _

theorem runOn_listed {s : State} (h : s.turns ≠ []) : runOn s = .next s := engineRun_listed h _

theorem onCommandPort_idle {s : State} (h : s.engine = .idle) (first : State → State) :
    onCommandPort first s = runOn (first s) := by
  simp [onCommandPort, h]

theorem onCommandPort_taken {s : State} (h : s.engine ≠ .idle) (first : State → State) :
    onCommandPort first s = .refused (.portBusy .command) := by
  unfold onCommandPort
  split
  · contradiction
  · rfl
  · rfl

/-- A command's meaning that answers next was given on an idle engine, and is the run from its local start. -/
theorem onCommandPort_next {s t : State} {first : State → State} (h : onCommandPort first s = .next t) :
    s.engine = .idle ∧ runOn (first s) = .next t := by
  by_cases he : s.engine = .idle
  · rw [onCommandPort_idle he] at h
    exact ⟨he, h⟩
  · rw [onCommandPort_taken he] at h
    cases h

end Sys2Proof.Machine
end

