-- ==== Sys2Proof/Laws/Exec.lean ====
section
/-! SUPPORT. The meanings, one shape for all commands of the command port: a local start, and a run of the engine. -/

namespace Sys2Proof.Machine

/-- A command's local computation up to its first `SrcRead` or its response. -/
def startOf : Instr → State → State
  | .peek1 n, s => widthStart (.peek1 n) 1 s
  | .read1 n, s => widthStart (.read1 n) 1 s
  | .peek8 n, s => widthStart (.peek8 n) 8 s
  | .read8 n, s => widthStart (.read8 n) 8 s
  | .peek16 n, s => widthStart (.peek16 n) 16 s
  | .read16 n, s => widthStart (.read16 n) 16 s
  | .peek32 n, s => widthStart (.peek32 n) 32 s
  | .read32 n, s => widthStart (.read32 n) 32 s
  | .peek64 n, s => widthStart (.peek64 n) 64 s
  | .read64 n, s => widthStart (.read64 n) 64 s
  | .skip n, s => skipLoop (.skip n) n.toNat s
  | .align, s => alignStart s
  | .isAligned, s => isAlignedStart s
  | .readBytes n, s => readBytesStart n s
  | .len, s => finish (lenValue s) s
  | .write _, s => s

theorem exec_command {i : Instr} {s : State} (hp : i.port = .command) (hw : i.wellFormed s.cfg.mode = true) :
    exec i s = onCommandPort (startOf i) s := by
  cases i <;> first | rfl | skip
  · rw [Instr.wellFormed, decide_eq_true_eq] at hw
    simp only [exec, execLen, hw]
    rfl
  · simp [Instr.port] at hp

theorem exec_len_direct {s : State} (h : s.cfg.mode = .direct) : exec .len s = .refused (.reserved .lenInDirect) := by
  simp [exec, execLen, h]

/-- A command that answers next is well-formed for the mode: `LEN` is refused in `DIRECT`. -/
theorem exec_next_wellFormed {i : Instr} {s t : State} (hp : i.port = .command) (h : exec i s = .next t) :
    i.wellFormed s.cfg.mode = true := by
  cases i <;> first | rfl | skip
  · cases hm : s.cfg.mode with
    | direct => rw [exec_len_direct hm] at h; cases h
    | buffered => rfl
  · simp [Instr.port] at hp

/-- Everything a command that answers next did: its local start on an idle engine, and a run from there. -/
theorem exec_next {i : Instr} {s t : State} (hp : i.port = .command) (h : exec i s = .next t) :
    s.engine = .idle ∧ runOn (startOf i s) = .next t := by
  rw [exec_command hp (exec_next_wellFormed hp h)] at h
  exact onCommandPort_next h

theorem widthStart_local (cmd : Instr) (w : Nat) (s : State) : LocalStep cmd s (widthStart cmd w s) := by
  unfold widthStart
  split
  · exact raise_local cmd _ s
  · split
    · exact raise_local cmd _ s
    · exact peekLoop_local cmd 0 s

theorem readBytesStart_local (n : Word) (s : State) : LocalStep (.readBytes n) s (readBytesStart n s) := by
  simp only [readBytesStart]
  split
  · exact .answered _ _
  · exact .running _ _

theorem startOf_local (i : Instr) (s : State) (hp : i.port = .command) : LocalStep i s (startOf i s) := by
  cases i with
  | write data => simp [Instr.port] at hp
  | skip n => exact skipLoop_local _ _ _
  | align => exact .answered _ _
  | isAligned => exact .answered s.acc _
  | readBytes n => exact readBytesStart_local n s
  | len => exact .answered s.acc _
  | _ => exact widthStart_local _ _ _

/-! ### WRITE -/

theorem execWrite_next {data : List Byte} {s t : State} (h : exec (.write data) s = .next t) :
    s.cfg.mode = .buffered ∧ s.producer = .idle ∧ sinkFits data s = true ∧
      t = if s.turns.isEmpty then wakePost (sinkAppend data s) else { sinkAppend data s with producer := .posting } := by
  simp only [exec, execWrite] at h
  split at h
  · cases h
  · cases h
  · rename_i hm hp
    split at h
    · rename_i hf
      refine ⟨hm, hp, hf, ?_⟩
      split at h
      · rename_i ht
        cases h
        rw [if_pos ht]
      · rename_i ht
        cases h
        rw [if_neg ht]
    · cases h

/-! ### The width-typed family -/

/-- What holds of the five peeks and of the five reads holds of every width-typed command (R67). -/
theorem widthForms_all {P : Nat × Instr → Prop} {n : Word} (hp : ∀ f ∈ peekForms n, P f) (hr : ∀ f ∈ readForms n, P f)
    {w : Nat} {cmd : Instr} (h : (w, cmd) ∈ widthForms n) : P (w, cmd) :=
  (List.mem_append.mp h).elim (hp _) (hr _)

/-- A width-typed command is its own local start under its width. -/
theorem startOf_width {n : Word} {w : Nat} {cmd : Instr} (h : (w, cmd) ∈ widthForms n) (s : State) :
    startOf cmd s = widthStart cmd w s :=
  widthForms_all (P := fun f => startOf f.2 s = widthStart f.2 f.1 s)
    (by simp [peekForms, startOf]) (by simp [readForms, startOf]) h

/-- What the family's members have in common (R67). -/
theorem widthForms_spec {n : Word} {w : Nat} {cmd : Instr} (h : (w, cmd) ∈ widthForms n) :
    cmd.port = .command ∧ (∀ m, cmd.wellFormed m = true) ∧ resultWidth cmd = some w ∧ count cmd = n.toNat ∧ w ≤ 64 ∧
      (consumes cmd = true ↔ (w, cmd) ∈ readForms n) ∧ (consumes cmd = false ↔ (w, cmd) ∈ peekForms n) :=
  widthForms_all
    (P := fun f => f.2.port = .command ∧ (∀ m, f.2.wellFormed m = true) ∧ resultWidth f.2 = some f.1 ∧
      count f.2 = n.toNat ∧ f.1 ≤ 64 ∧ (consumes f.2 = true ↔ f ∈ readForms n) ∧
      (consumes f.2 = false ↔ f ∈ peekForms n))
    (by simp [peekForms, readForms, Instr.port, Instr.wellFormed, resultWidth, count, Instr.operand, consumes])
    (by simp [peekForms, readForms, Instr.port, Instr.wellFormed, resultWidth, count, Instr.operand, consumes]) h

theorem mem_widthForms_of_peek {n : Word} {w : Nat} {cmd : Instr} (h : (w, cmd) ∈ peekForms n) :
    (w, cmd) ∈ widthForms n := List.mem_append_left _ h

theorem mem_widthForms_of_read {n : Word} {w : Nat} {cmd : Instr} (h : (w, cmd) ∈ readForms n) :
    (w, cmd) ∈ widthForms n := List.mem_append_right _ h

/-- A width-typed command on an idle engine is the run from its local start. -/
theorem exec_width {n : Word} {w : Nat} {cmd : Instr} (h : (w, cmd) ∈ widthForms n) {s : State}
    (hi : s.engine = .idle) : exec cmd s = runOn (widthStart cmd w s) := by
  have hs := widthForms_spec h
  rw [exec_command hs.1 (hs.2.1 _), onCommandPort_idle hi, startOf_width h]

/-- An admitted width-typed command starts with `Peek`'s loop. -/
theorem widthStart_admitted {n : Word} {w : Nat} {cmd : Instr} (h : (w, cmd) ∈ widthForms n) {s : State}
    (ha : Admitted s w n) : widthStart cmd w s = peekLoop cmd 0 s := by
  obtain ⟨h1, h2, h3⟩ := ha
  have hc := (widthForms_spec h).2.2.2.1
  have hw : widthOverflow w (count cmd) = false := by
    simp [widthOverflow, hc]; omega
  have hal : alignmentOverflow s.acc (count cmd) = false := by
    simp only [alignmentOverflow, alignLimit, Acc.aligned, hc]
    rcases h3 with h3 | h3
    · simp [show ¬ 56 < n.toNat by omega]
    · simp [h3]
  simp [widthStart, hw, hal]

/-- `Peek`'s loop with enough bits held answers (R84, R88). -/
theorem peekLoop_held {cmd : Instr} {got : Nat} {s : State} (h : count cmd ≤ s.acc.remaining) :
    peekLoop cmd got s = finishWidth cmd s := by
  simp [peekLoop, h]

/-- `Peek`'s loop with too few bits goes on to a fill (R83). -/
theorem peekLoop_short {cmd : Instr} {got : Nat} {s : State} (h : s.acc.remaining < count cmd) :
    peekLoop cmd got s = { s with engine := .busy cmd (.filling got) } := by
  simp [peekLoop, show ¬ count cmd ≤ s.acc.remaining by omega]

/-- A fill of a width-typed command that was not answered `(0, EndOfData)`: what came is absorbed and `Peek`'s loop goes on,
which on `(0, OK)` is the same request again (R43(b), R80, R83). -/
theorem deliver_filling {cmd : Instr} {got : Nat} {bytes : List Byte} {st : SrcStatus} {s : State}
    (h : s.acc.remaining < count cmd) (hne : ¬ (bytes = [] ∧ st = .endOfData)) :
    deliver cmd (.filling got) bytes st s =
      peekLoop cmd (got + bytes.length)
        { s with acc := s.acc.absorb bytes, engine := .busy cmd (.filling got) } := by
  cases bytes with
  | cons b bs => simp [deliver, fillWith]
  | nil =>
    cases st with
    | ok => simp [deliver, fillWith, peekLoop_short (s := { s with engine := .busy cmd (.filling got) }) h]
    | endOfData => simp at hne

theorem finishWidth_idle (cmd : Instr) (s : State) : (finishWidth cmd s).engine = .idle := by
  unfold finishWidth
  split <;> rfl

theorem finishWidth_peek {cmd : Instr} (h : consumes cmd = false) (s : State) :
    finishWidth cmd s = finish (s.acc.top (count cmd)) s := by
  simp [finishWidth, h]

theorem finishWidth_read {cmd : Instr} (h : consumes cmd = true) (s : State) :
    finishWidth cmd s = finish (s.acc.top (count cmd)) { s with acc := s.acc.drop (count cmd) } := by
  simp [finishWidth, h]

end Sys2Proof.Machine
end

