-- ==== Sys2Proof/Laws/Source.lean ====
section
/-! SUPPORT. What an answer of the external source can be (spec/20_memory.md R43, R44), in parts, and what a fill loop on
its answers can do (spec/40_accumulator.md R80, R83). -/

namespace Sys2Proof.Machine

theorem Source.answer_ended {src : Source} (h : src.ended = true) (max : Nat) :
    src.answer max = ([], .endOfData, src) := by
  simp [Source.answer, h]

theorem Source.answer_choice {src : Source} (h : src.ended = false) {c : Choice} {rest : List Choice}
    (hc : src.choices = c :: rest) (max : Nat) :
    src.answer max =
      (src.stream.take (min c.limit max), srcStatus c.eod,
        { src with stream := src.stream.drop (min c.limit max), choices := rest,
                   ended := c.eod && (src.stream.take (min c.limit max)).isEmpty }) := by
  simp [Source.answer, h, hc]

theorem Source.answer_greedy {src : Source} (h : src.Greedy) (max : Nat) :
    src.answer max =
      (src.stream.take max, srcStatus (src.stream.take max).isEmpty,
        { src with stream := src.stream.drop max, ended := (src.stream.take max).isEmpty }) := by
  simp [Source.answer, h.1, h.2.1, h.2.2]

theorem Source.answer_tryAgain {src : Source} (h : src.ended = false) (hc : src.choices = [])
    (hh : src.habit = .tryAgain) (max : Nat) : src.answer max = ([], .ok, src) := by
  simp [Source.answer, h, hc, hh]

/-- R43(a). -/
theorem Source.answer_length_le (src : Source) (max : Nat) : (src.answer max).1.length ≤ max := by
  unfold Source.answer
  split
  · simp
  · split
    · simp
    · split <;> simp

/-- R43(d). -/
theorem Source.answer_append_stream (src : Source) (max : Nat) :
    (src.answer max).1 ++ (src.answer max).2.2.stream = src.stream := by
  unfold Source.answer
  split
  · simp
  · split
    · simp
    · split <;> simp

/-- The measure that every answer but `(0, EndOfData)` and an endless `(0, OK)` lowers: what is left to choose and to
deliver. -/
theorem Source.answer_lowers {src : Source} {max : Nat} (hmax : 0 < max)
    (h : src.habit = .greedy ∨ src.choices ≠ []) (hs : (src.answer max).1 ≠ [] ∨ (src.answer max).2.1 = .ok) :
    (src.answer max).2.2.stream.length + (src.answer max).2.2.choices.length <
      src.stream.length + src.choices.length := by
  cases he : src.ended with
  | true => simp [Source.answer_ended he] at hs
  | false =>
    cases hc : src.choices with
    | cons c rest =>
      rw [Source.answer_choice he hc]
      simp; omega
    | nil =>
      have hg : src.Greedy := ⟨he, hc, h.resolve_right (by simp [hc])⟩
      rw [Source.answer_greedy hg] at hs ⊢
      cases hst : src.stream with
      | nil => simp [hst, srcStatus] at hs
      | cons b bs => simp [hc]; omega

/-! ### The fill loop on the source's answers -/

@[simp] theorem FillRun_nil (n : Nat) (a b : Acc) (src dst : Source) :
    FillRun n a src [] b dst ↔ b = a ∧ dst = src := Iff.rfl

@[simp] theorem FillRun_cons (n : Nat) (a b : Acc) (src dst : Source) (e : Exchange) (rest : List Exchange) :
    FillRun n a src (e :: rest) b dst ↔
      a.remaining < n ∧ e.max = (64 - a.remaining) / 8 ∧
        (src.answer e.max).1 = e.bytes ∧ (src.answer e.max).2.1 = e.status ∧
        ¬ (e.bytes = [] ∧ e.status = .endOfData) ∧
        FillRun n (a.absorb e.bytes) (src.answer e.max).2.2 rest b dst := Iff.rfl

/-- A source that answers `(0, OK)` for ever brings a fill loop nowhere (R152). -/
theorem FillRun.tryAgain {n : Nat} {src : Source} (he : src.ended = false) (hc : src.choices = [])
    (hh : src.habit = .tryAgain) {a b : Acc} {dst : Source} {fills : List Exchange} (h : FillRun n a src fills b dst) :
    b = a := by
  induction fills with
  | nil => exact h.1
  | cons e rest ih =>
    obtain ⟨-, -, hb, -, -, h⟩ := h
    rw [Source.answer_tryAgain he hc hh] at hb h
    rw [← hb] at h
    exact ih h

/-- A fill loop that comes to its `n` bits makes at most as many requests as the source has bytes and choices. -/
theorem FillRun.length_le {n : Nat} (hn : n ≤ 64) {a b : Acc} {src dst : Source} {fills : List Exchange}
    (hal : n ≤ 56 ∨ a.remaining % 8 = 0) (h : FillRun n a src fills b dst) (hb : n ≤ b.remaining) :
    fills.length ≤ src.stream.length + src.choices.length := by
  induction fills generalizing a src with
  | nil => simp
  | cons e rest ih =>
    have h0 := h
    obtain ⟨hr, hm, h1, h2, hne, h⟩ := h
    have hs : (src.answer e.max).1 ≠ [] ∨ (src.answer e.max).2.1 = .ok := by
      rw [h1, h2]
      cases hst : e.status with
      | ok => exact .inr rfl
      | endOfData => exact .inl fun hb => hne ⟨hb, hst⟩
    have hch : src.habit = .greedy ∨ src.choices ≠ [] := by
      cases he : src.ended with
      | true => simp [Source.answer_ended he] at hs
      | false =>
        cases hh : src.habit with
        | greedy => exact .inl rfl
        | tryAgain =>
          refine .inr fun hc => ?_
          rw [FillRun.tryAgain he hc hh h0] at hb
          omega
    have hlow := Source.answer_lowers (hm ▸ Acc.cap_pos hn hal hr) hch hs
    have := ih (by simp only [Acc.absorb_remaining]; omega) h
    rw [List.length_cons]
    omega

end Sys2Proof.Machine
end

