-- ==== Sys2Proof/Laws/Step.lean ====
section
/-! SUPPORT. Everything one step can do (spec/20_memory.md R55), and what the engine's part of it leaves alone or conserves
(spec/10_state.md R34, R37, R39, spec/30_encoding.md R64, R75). -/

namespace Sys2Proof.Machine

/-! ### What is decoded -/

theorem decodeCommand_port {m : Mode} {w : PortWord} {i : Instr} (h : decodeCommand m w = .instr i) :
    i.port = .command := by
  have c0 : ∀ {arg : Word} {j : Instr}, noOperand arg j = .instr i → i = j := by
    intro arg j hj
    unfold noOperand at hj
    split at hj
    · cases hj; rfl
    · cases hj
  unfold decodeCommand at h
  split at h
  case h_12 => rw [c0 h]; rfl
  case h_13 => rw [c0 h]; rfl
  case h_15 =>
    cases m with
    | direct => cases h
    | buffered => rw [c0 h]; rfl
  case h_16 => cases h
  all_goals cases h; rfl

theorem decodeWrite_instr {m : Mode} {p : Packet} {i : Instr} (h : decodeWrite m p = .instr i) :
    i = .write p.data ∧ m = .buffered := by
  cases m with
  | direct => cases h
  | buffered =>
    simp only [decodeWrite] at h
    split at h
    · split at h
      · cases h; exact ⟨rfl, rfl⟩
      · cases h
    · cases h

/-! ### Everything one step can do -/

/-- The cases of a step that answers next. -/
inductive StepMove (s : State) : State → Prop where
  /-- the engine's turn, with nothing to accept -/
  | noCommand (hn : nextTurn s = .engine) (he : s.engine = .idle) (hc : s.commands = []) : StepMove s (popTurn s)
  /-- the engine's turn: a command is accepted, and runs on from its local start -/
  | accepts (w : PortWord) (rest : List PortWord) (i : Instr) (t : State) (hn : nextTurn s = .engine)
      (he : s.engine = .idle) (hc : s.commands = w :: rest) (hd : decodeCommand s.cfg.mode w = .instr i)
      (hp : i.port = .command) (hr : runOn (startOf i { popTurn s with commands := rest }) = .next t) : StepMove s t
  /-- the engine's turn: the command in progress takes an atomic step, and runs on -/
  | resumes (u t : State) (hn : nextTurn s = .engine) (he : s.engine ≠ .idle) (hu : engineStep (popTurn s) = .next u)
      (hr : runOn u = .next t) : StepMove s t
  /-- the producer's turn: the post that its `WRITE` owes -/
  | posts (hn : nextTurn s = .producer) (hp : s.producer = .posting) :
      StepMove s { popTurn s with wake := true, producer := .idle }
  /-- the producer's turn, with nothing to write -/
  | noWrite (hn : nextTurn s = .producer) (hp : s.producer = .idle) (hw : s.writes = []) : StepMove s (popTurn s)
  /-- the producer's turn: a whole `WRITE`, no turn being listed after this one -/
  | writes (p : Packet) (rest : List Packet) (hn : nextTurn s = .producer) (hp : s.producer = .idle)
      (hw : s.writes = p :: rest) (hm : s.cfg.mode = .buffered) (hf : sinkFits p.data s = true)
      (ht : (popTurn s).turns = []) :
      StepMove s { popTurn s with writes := rest, sink := s.sink ++ p.data, wake := true }
  /-- the producer's turn: the append of a `WRITE` -/
  | appends (p : Packet) (rest : List Packet) (hn : nextTurn s = .producer) (hp : s.producer = .idle)
      (hw : s.writes = p :: rest) (hm : s.cfg.mode = .buffered) (hf : sinkFits p.data s = true)
      (ht : (popTurn s).turns ≠ []) :
      StepMove s { popTurn s with writes := rest, sink := s.sink ++ p.data, producer := .posting }
  /-- the reset input -/
  | resets (hn : nextTurn s = .reset) : StepMove s (resetInput (popTurn s))

theorem engineTurn_move {s t : State} (hn : nextTurn s = .engine) (h : engineTurn (popTurn s) = .next t) :
    StepMove s t := by
  have resume : ∀ cmd p, s.engine = .busy cmd p ∨ s.engine = .waiting cmd p →
      (match engineStep (popTurn s) with
        | .next u => runOn u
        | .fault r => .fault r
        | .refused r => .refused r) = .next t → StepMove s t := by
    intro cmd p he h
    split at h
    · rename_i u hu
      exact .resumes u t hn (by rcases he with he | he <;> simp [he]) hu h
    · cases h
    · cases h
  unfold engineTurn at h
  split at h
  · rename_i he
    split at h
    · rename_i hc
      cases h
      exact .noCommand hn he hc
    · rename_i w rest hc
      split at h
      · rename_i i hd
        have hp := decodeCommand_port hd
        exact .accepts w rest i t hn he hc hd hp (exec_next hp h).2
      · cases h
  · rename_i cmd p he
    exact resume cmd p (.inl he) h
  · rename_i cmd p he
    exact resume cmd p (.inr he) h

theorem producerTurn_move {s t : State} (hn : nextTurn s = .producer) (h : producerTurn (popTurn s) = .next t) :
    StepMove s t := by
  unfold producerTurn at h
  split at h
  · rename_i hp
    cases h
    exact .posts hn hp
  · rename_i hp
    split at h
    · rename_i hw
      cases h
      exact .noWrite hn hp hw
    · rename_i p rest hw
      split at h
      · rename_i i hd
        obtain ⟨rfl, hm⟩ := decodeWrite_instr hd
        obtain ⟨_, _, hf, rfl⟩ := execWrite_next h
        by_cases ht : (popTurn s).turns = []
        · rw [if_pos (by simpa using ht)]
          exact .writes p rest hn hp hw hm hf ht
        · rw [if_neg (by simpa using ht)]
          exact .appends p rest hn hp hw hm hf ht
      · cases h

/-- Everything a step that answers next can do. -/
theorem step_move {s t : State} (h : step s = .next t) : StepMove s t := by
  unfold step turnStep at h
  split at h
  · exact engineTurn_move ‹_› h
  · exact producerTurn_move ‹_› h
  · cases h
    exact .resets ‹_›

/-! ### What the engine leaves alone and what it conserves -/

/-- What holds between a state and the next of every atomic step, and is reflexive and transitive, holds over a run. -/
theorem runOn_rel {R : State → State → Prop} (refl : ∀ s, R s s) (trans : ∀ a b c, R a b → R b c → R a c)
    (hstep : ∀ s t, engineStep s = .next t → R s t) {s t : State} (h : runOn s = .next t) : R s t :=
  engineRun_induction (P := R s) (fun a b h1 h2 => trans _ _ _ h1 (hstep a b h2)) _ (refl s) h

/-- What a command's local computation leaves alone (R55: it touches only `acc` and `progress`, and answers). -/
theorem LocalStep.frame {cmd : Instr} {s t : State} (h : LocalStep cmd s t) :
    t = { s with acc := t.acc, engine := t.engine, responses := t.responses } := by
  cases h <;> rfl

/-- What the engine's steps leave alone, and how they move bytes: the frame of R34, with R16, R24, R37 and R39. -/
structure EngineFrame (s t : State) : Prop where
  cfg : t.cfg = s.cfg
  producer : t.producer = s.producer
  commands : t.commands = s.commands
  writes : t.writes = s.writes
  turns : t.turns = s.turns
  /-- the taken stream only grows -/
  taken : ∃ more, t.taken = s.taken ++ more
  /-- in `DIRECT` the bytes come from the source, in order and none lost -/
  direct : s.cfg.mode = .direct → t.taken ++ t.source.stream = s.taken ++ s.source.stream ∧ t.sink = s.sink
  /-- in `BUFFERED` they come from the sink, and no step posts -/
  buffered : s.cfg.mode = .buffered →
    t.taken ++ t.sink = s.taken ++ s.sink ∧ t.source = s.source ∧ (t.wake = true → s.wake = true)

theorem EngineFrame.refl (s : State) : EngineFrame s s :=
  ⟨rfl, rfl, rfl, rfl, rfl, ⟨[], by simp⟩, fun _ => ⟨rfl, rfl⟩, fun _ => ⟨rfl, rfl, id⟩⟩

theorem EngineFrame.trans {a b c : State} (h : EngineFrame a b) (k : EngineFrame b c) : EngineFrame a c := by
  obtain ⟨m, hm⟩ := h.taken
  obtain ⟨n, hn⟩ := k.taken
  refine ⟨k.cfg.trans h.cfg, k.producer.trans h.producer, k.commands.trans h.commands, k.writes.trans h.writes,
    k.turns.trans h.turns, ⟨m ++ n, by rw [hn, hm, List.append_assoc]⟩, fun hd => ?_, fun hb => ?_⟩
  · have h1 := h.direct hd
    have k1 := k.direct (by rw [h.cfg]; exact hd)
    exact ⟨k1.1.trans h1.1, k1.2.trans h1.2⟩
  · have h1 := h.buffered hb
    have k1 := k.buffered (by rw [h.cfg]; exact hb)
    exact ⟨k1.1.trans h1.1, k1.2.1.trans h1.2.1, fun hw => h1.2.2 (k1.2.2 hw)⟩

theorem LocalStep.engineFrame {cmd : Instr} {s t : State} (h : LocalStep cmd s t) : EngineFrame s t := by
  cases h <;>
    exact ⟨rfl, rfl, rfl, rfl, rfl, ⟨[], by simp [State.taken]⟩, fun _ => ⟨rfl, rfl⟩, fun _ => ⟨rfl, rfl, id⟩⟩

/-- The source's answer, taken (R42). -/
theorem answered_engineFrame (s : State) (max : Nat) (hm : s.cfg.mode = .direct) :
    EngineFrame s (record max (s.source.answer max).1 (s.source.answer max).2.1
      { s with source := (s.source.answer max).2.2 }) := by
  refine ⟨rfl, rfl, rfl, rfl, rfl, ⟨_, taken_record _ _ _ _⟩, fun _ => ⟨?_, rfl⟩, fun hb => by simp [hm] at hb⟩
  rw [taken_record]
  change s.taken ++ _ ++ (s.source.answer max).2.2.stream = _
  rw [List.append_assoc, Source.answer_append_stream]

/-- A successful pull (R51). -/
theorem pulled_engineFrame (s : State) (max : Nat) (hm : s.cfg.mode = .buffered) : EngineFrame s (pulled max s) := by
  refine ⟨rfl, rfl, rfl, rfl, rfl, ⟨_, taken_record _ _ _ _⟩, fun hd => by simp [hm] at hd, fun _ => ⟨?_, rfl, id⟩⟩
  rw [pulled, taken_record]
  change s.taken ++ _ ++ s.sink.drop max = _
  rw [List.append_assoc, List.take_append_drop]

theorem engineStep_frame {s t : State} (h : engineStep s = .next t) : EngineFrame s t := by
  cases engineStep_move h with
  | rests => exact .refl s
  | takes => exact ⟨rfl, rfl, rfl, rfl, rfl, ⟨[], by simp [State.taken]⟩, fun _ => ⟨rfl, rfl⟩,
      fun _ => ⟨rfl, rfl, fun hw => by simp [wakeTake] at hw⟩⟩
  | blocks => exact ⟨rfl, rfl, rfl, rfl, rfl, ⟨[], by simp [State.taken]⟩, fun _ => ⟨rfl, rfl⟩, fun _ => ⟨rfl, rfl, id⟩⟩
  | asks cmd p he hr hm => exact (answered_engineFrame s _ hm).trans (deliver_local _ _ _ _ _).engineFrame
  | pulls cmd p he hr hm => exact (pulled_engineFrame s _ hm).trans (deliver_local _ _ _ _ _).engineFrame

theorem runOn_frame {s t : State} (h : runOn s = .next t) : EngineFrame s t :=
  runOn_rel EngineFrame.refl (fun _ _ _ => EngineFrame.trans) (fun _ _ => engineStep_frame) h

/-- A command of the command port that answers next: its frame. -/
theorem exec_frame {i : Instr} {s t : State} (hp : i.port = .command) (h : exec i s = .next t) : EngineFrame s t :=
  (startOf_local i s hp).engineFrame.trans (runOn_frame (exec_next hp h).2)

/-- An engine that is not waiting is never waiting in `DIRECT`, and `wake` is then left alone (R27, R34). -/
theorem runOn_direct {s t : State} (hm : s.cfg.mode = .direct) (he : ∀ cmd p, s.engine ≠ .waiting cmd p)
    (h : runOn s = .next t) : t.wake = s.wake ∧ ∀ cmd p, t.engine ≠ .waiting cmd p := by
  have := engineRun_induction
    (P := fun t => t.cfg.mode = .direct ∧ t.wake = s.wake ∧ ∀ cmd p, t.engine ≠ .waiting cmd p) ?_ _ ⟨hm, rfl, he⟩ h
  · exact this.2
  · rintro u v ⟨h1, h2, h3⟩ hs
    refine ⟨by rw [(engineStep_frame hs).cfg]; exact h1, ?_⟩
    cases engineStep_move hs with
    | rests => exact ⟨h2, h3⟩
    | takes c p he => exact absurd he (h3 c p)
    | blocks c p he _ hb => simp [h1] at hb
    | pulls c p he _ hb => simp [h1] at hb
    | asks c p he _ hb =>
      have hl := deliver_local c p (u.source.answer (request u.acc p)).1 (u.source.answer (request u.acc p)).2.1
        (record (request u.acc p) (u.source.answer (request u.acc p)).1 (u.source.answer (request u.acc p)).2.1
          { u with source := (u.source.answer (request u.acc p)).2.2 })
      generalize hv : deliver c p _ _ _ = v at hl
      change (directStep c p u) = v at hv
      rw [hv]
      cases hl with
      | answered a r => exact ⟨h2, by simp⟩
      | running a q => exact ⟨h2, by simp⟩

/-- How many responses the engine has given and owes (R64). -/
def owing (s : State) : Nat := (if s.engine = .idle then 0 else 1) + s.responses.length

/-- A run's responses: at most one, none from an idle engine, and the engine is idle after it. -/
structure Answers (s t : State) : Prop where
  owing : owing t = owing s
  responses : ∃ rs, t.responses = s.responses ++ rs ∧ rs.length ≤ 1 ∧ (s.engine = .idle → rs = []) ∧
    (rs ≠ [] → t.engine = .idle)

theorem LocalStep.answers {cmd : Instr} {b s t : State} (h : LocalStep cmd b t) (hb : b.responses = s.responses)
    (he : s.engine ≠ .idle) : Answers s t := by
  cases h with
  | answered a r => exact ⟨by simp [Machine.owing, hb, he]; omega, [r], by simp [hb], by simp, by simp [he], by simp⟩
  | running a p => exact ⟨by simp [Machine.owing, hb, he], [], by simp [hb], by simp, by simp, by simp⟩

theorem engineStep_answers {s t : State} (h : engineStep s = .next t) : Answers s t := by
  cases engineStep_move h with
  | rests => exact ⟨rfl, [], by simp⟩
  | takes cmd p he => exact ⟨by simp [owing, he], [], by simp⟩
  | blocks cmd p he => exact ⟨by simp [owing, he], [], by simp⟩
  | asks cmd p he => exact (deliver_local cmd p _ _ _).answers rfl (by simp [he])
  | pulls cmd p he => exact (deliver_local cmd p _ _ _).answers rfl (by simp [he])

theorem Answers.trans {a b c : State} (h : Answers a b) (k : Answers b c) : Answers a c := by
  obtain ⟨h1, rs, h2, h3, h4, h5⟩ := h
  obtain ⟨k1, qs, k2, k3, k4, k5⟩ := k
  refine ⟨k1.trans h1, rs ++ qs, by rw [k2, h2, List.append_assoc], ?_, fun ha => ?_, fun hne => ?_⟩
  · by_cases hr : rs = []
    · simpa [hr] using k3
    · simpa [k4 (h5 hr)] using h3
  · have hr := h4 ha
    have hb : b.engine = .idle := by
      by_contra hc
      simp [Machine.owing, ha, hc, h2, hr] at h1
    simp [hr, k4 hb]
  · by_cases hr : rs = []
    · exact k5 (by simpa [hr] using hne)
    · have hb := h5 hr
      have hq := k4 hb
      by_contra hc
      simp [Machine.owing, hb, hc, k2, hq] at k1

theorem runOn_answers {s t : State} (h : runOn s = .next t) : Answers s t :=
  runOn_rel (R := Answers) (fun _ => ⟨rfl, [], by simp⟩) (fun _ _ _ => Answers.trans) (fun _ _ => engineStep_answers) h

end Sys2Proof.Machine
end

