-- ==== Sys2Proof/Laws/Answers.lean ====
section
/-! SUPPORT. Which responses a command can answer with (spec/60_exceptions.md R125 to R130, R133, R136). -/

namespace Sys2Proof.Machine

/-- At most one response is added, it is as `Q` says, and the engine is idle after it. -/
def Adds (Q : Response → Prop) (s t : State) : Prop :=
  t.responses = s.responses ∨ ∃ r, t.responses = s.responses ++ [r] ∧ Q r ∧ t.engine = .idle

/-- What a response given after a `SrcRead` can be in a mode (R118, R119, R136). -/
structure GoodAnswer (m : Mode) (r : Response) : Prop where
  wo : r.status ≠ .widthOverflow
  ao : r.status ≠ .alignmentOverflow
  insufficient : r.status ≠ .insufficientData
  value : r.status ≠ .ok → r.value = 0
  buffered : m = .buffered → r.status = .ok

theorem endStatus_good (cfg : Config) (cmd : Instr) (got : Nat) :
    endStatus cfg cmd got = .endOfData ∨ endStatus cfg cmd got = .unexpectedEndOfData := by
  unfold endStatus peekEndStatus
  cases cfg.partialEof <;> by_cases h : got = 0 <;> by_cases h2 : consumes cmd = true <;> simp [h, h2, readStatus, partialStatus]

/-- `return v` (R10). -/
theorem finish_good (m : Mode) (v : Word) : GoodAnswer m ⟨.ok, v, []⟩ := ⟨by simp, by simp, by simp, by simp, by simp⟩

theorem deliver_good (m : Mode) (cmd : Instr) (p : Progress) (bytes : List Byte) (st : SrcStatus) (s : State)
   (hb : m = .buffered → bytes ≠ [] ∧ st = .ok) : Adds (GoodAnswer m) s (deliver cmd p bytes st s) := by
  have fw : ∀ (x : State), x.responses = s.responses → Adds (GoodAnswer m) s (finishWidth cmd x) := by
    intro x hx
    unfold finishWidth
    simp only
    split <;> exact .inr ⟨_, by simp [finish, respond, hx]; rfl, finish_good _ _, rfl⟩
  have pl : ∀ (x : State) g, x.responses = s.responses → Adds (GoodAnswer m) s (peekLoop cmd g x) := by
    intro x g hx
    unfold peekLoop
    split
    · exact fw x hx
    · exact .inl hx
  have rs : ∀ (x : State) e, x.responses = s.responses → (e = .endOfData ∨ e = .unexpectedEndOfData) →
      m ≠ .buffered → Adds (GoodAnswer m) s (raise e x) := by
    intro x e hx he hm
    refine .inr ⟨⟨e, 0, []⟩, by simp [raise, respond, hx], ?_, rfl⟩
    rcases he with rfl | rfl <;> exact ⟨by simp, by simp, by simp, by simp, fun h => absurd h hm⟩
  cases p with
  | filling got =>
    simp only [deliver, fillWith]
    split
    · rename_i he
      simp at he
      cases st
      · exact .inl rfl
      · exact rs _ _ rfl (endStatus_good _ _ _) (fun h => (hb h).1 he)
    · exact pl _ _ rfl
  | skipping owed =>
    simp only [deliver, fillWith]
    split
    · rename_i he
      simp at he
      cases st
      · exact .inl rfl
      · exact rs _ _ rfl (.inr rfl) (fun h => (hb h).1 he)
    · simp only [skipLoop]
      split
      · exact .inr ⟨_, rfl, finish_good _ _, rfl⟩
      · exact .inl rfl
  | passing out want =>
    simp only [deliver]
    refine .inr ⟨_, rfl, ?_, rfl⟩
    refine ⟨?_, ?_, ?_, by simp, fun h => by rw [(hb h).2]; rfl⟩ <;> cases st <;> simp [SrcStatus.status]

theorem engineStep_good {s t : State} (h : engineStep s = .next t) :
    (s.engine = .idle → t = s) ∧ Adds (GoodAnswer s.cfg.mode) s t := by
  cases engineStep_move h with
  | rests => exact ⟨fun _ => rfl, .inl rfl⟩
  | takes c p he => exact ⟨by simp [he], .inl rfl⟩
  | blocks c p he => exact ⟨by simp [he], .inl rfl⟩
  | asks c p he _ hm => exact ⟨by simp [he], deliver_good s.cfg.mode c p _ _ _ (by simp [hm])⟩
  | pulls c p he hr hm hs =>
    refine ⟨by simp [he], deliver_good s.cfg.mode c p _ _ (pulled _ s) (fun _ => ⟨?_, rfl⟩)⟩
    intro h0
    have := congrArg List.length h0
    simp at this
    rcases this with h | h
    · exact hr h
    · exact hs h

theorem runOn_good {s t : State} (h : runOn s = .next t) :
    (s.engine = .idle → t = s) ∧ Adds (GoodAnswer s.cfg.mode) s t := by
  have := engineRun_induction
    (P := fun t => t.cfg = s.cfg ∧ (s.engine = .idle → t = s) ∧ Adds (GoodAnswer s.cfg.mode) s t) ?_ _ ⟨rfl, fun _ => rfl, .inl rfl⟩ h
  · exact this.2
  · rintro u v ⟨h0, h1, h2⟩ hs
    obtain ⟨k1, k2⟩ := engineStep_good hs
    refine ⟨(engineStep_frame hs).cfg.trans h0, fun hi => ?_, ?_⟩
    · have e := h1 hi; subst e; exact k1 hi
    · rcases h2 with h2 | ⟨r, h2, hq, hi⟩
      · rw [h0] at k2
        rcases k2 with k2 | ⟨r, k2, hq, hi⟩
        · exact .inl (k2.trans h2)
        · exact .inr ⟨r, by rw [k2, h2], hq, hi⟩
      · rw [k1 hi]; exact .inr ⟨r, h2, hq, hi⟩

/-- A response that reports one of the two contract errors, with its cause (R126, R127). -/
def ContractError (i : Instr) (s : State) (r : Response) : Prop :=
  (r.status = .widthOverflow ∧ r.value = 0 ∧ ∃ n w, (w, i) ∈ widthForms n ∧ (n.toNat = 0 ∨ w < n.toNat)) ∨
  (r.status = .alignmentOverflow ∧ r.value = 0 ∧
    ∃ n, (i = .peek64 n ∨ i = .read64 n) ∧ 56 < n.toNat ∧ n.toNat ≤ 64 ∧ s.acc.remaining % 8 ≠ 0)

/-- What the local start of a command can answer. -/
theorem startOf_answer (i : Instr) (s : State) (hp : i.port = .command) :
   (startOf i s).cfg = s.cfg ∧ ((startOf i s).responses = s.responses ∨
   ∃ r, (startOf i s).responses = s.responses ++ [r] ∧ (startOf i s).engine = .idle ∧
     (r.status = .ok ∨ ContractError i s r)) := by
  refine ⟨by rw [(startOf_local i s hp).frame], ?_⟩
  have width : ∀ n w, (w, i) ∈ widthForms n → (w = 64 → i = .peek64 n ∨ i = .read64 n) → (w ≠ 64 → w ≤ 32) →
      ((widthStart i w s).responses = s.responses ∨
   ∃ r, (widthStart i w s).responses = s.responses ++ [r] ∧ (widthStart i w s).engine = .idle ∧
     (r.status = .ok ∨ ContractError i s r)) := by
    intro n w hm h64 h32
    have sp := widthForms_spec hm
    unfold widthStart
    split
    · rename_i h; rw [widthOverflow_iff, sp.2.2.2.1] at h
      exact .inr ⟨_, rfl, rfl, .inr (.inl ⟨rfl, rfl, n, w, hm, h⟩)⟩
    · rename_i h0; rw [widthOverflow_iff, sp.2.2.2.1] at h0
      split
      · rename_i h; rw [alignmentOverflow_iff, sp.2.2.2.1] at h
        have e : w = 64 := by by_contra hne; have := h32 hne; omega
        exact .inr ⟨_, rfl, rfl, .inr (.inr ⟨rfl, rfl, n, h64 e, h.1, by omega, h.2⟩)⟩
      · unfold peekLoop
        split
        · refine .inr ⟨⟨.ok, s.acc.top (count i), []⟩, ?_, finishWidth_idle _ _, .inl rfl⟩
          unfold finishWidth; simp only; split <;> rfl
        · exact .inl rfl
  cases i with
  | write d => simp [Instr.port] at hp
  | skip n =>
    simp only [startOf, skipLoop]
    split
    · exact .inr ⟨_, rfl, rfl, .inl rfl⟩
    · exact .inl rfl
  | align => exact .inr ⟨_, rfl, rfl, .inl rfl⟩
  | isAligned => exact .inr ⟨_, rfl, rfl, .inl rfl⟩
  | len => exact .inr ⟨_, rfl, rfl, .inl rfl⟩
  | readBytes n =>
    simp only [startOf, readBytesStart]
    split
    · exact .inr ⟨_, rfl, rfl, .inl rfl⟩
    · exact .inl rfl
  | peek1 n => exact width n 1 (by simp [widthForms, peekForms]) (by simp) (by simp)
  | peek8 n => exact width n 8 (by simp [widthForms, peekForms]) (by simp) (by simp)
  | peek16 n => exact width n 16 (by simp [widthForms, peekForms]) (by simp) (by simp)
  | peek32 n => exact width n 32 (by simp [widthForms, peekForms]) (by simp) (by simp)
  | peek64 n => exact width n 64 (by simp [widthForms, peekForms]) (by simp) (by simp)
  | read1 n => exact width n 1 (by simp [widthForms, readForms]) (by simp) (by simp)
  | read8 n => exact width n 8 (by simp [widthForms, readForms]) (by simp) (by simp)
  | read16 n => exact width n 16 (by simp [widthForms, readForms]) (by simp) (by simp)
  | read32 n => exact width n 32 (by simp [widthForms, readForms]) (by simp) (by simp)
  | read64 n => exact width n 64 (by simp [widthForms, readForms]) (by simp) (by simp)

/-- Everything a command that answers next can have answered (R93, R125 to R129, R136). -/
theorem exec_answer {i s t} (hp : i.port = .command) (hr : runOn (startOf i s) = .next t) :
   t.responses = s.responses ∨ ∃ r, t.responses = s.responses ++ [r] ∧
     (GoodAnswer s.cfg.mode r ∨ ContractError i s r) := by
  obtain ⟨hc, hs⟩ := startOf_answer i s hp
  obtain ⟨g1, g2⟩ := runOn_good hr
  rcases hs with hs | ⟨r, hs, hi, hq⟩
  · rcases g2 with g | ⟨r, g, hq, _⟩
    · exact .inl (g.trans hs)
    · exact .inr ⟨r, by rw [g, hs], .inl (by rw [hc] at hq; exact hq)⟩
  · rw [g1 hi]
    refine .inr ⟨r, hs, ?_⟩
    rcases hq with hq | hq
    · exact .inl ⟨by simp [hq], by simp [hq], by simp [hq], by simp [hq], by simp [hq]⟩
    · exact .inr hq

end Sys2Proof.Machine
end

