-- ==== Sys2Proof/Laws/Decode.lean ====
section
/-! SUPPORT. The fields of a 72-bit word (spec/30_encoding.md R63, R65): a word is its two fields, and an encoding's fields
are the opcode and the operand. -/

namespace Sys2Proof

/-- The bits of a word made of an opcode and an operand (R63). -/
theorem fields_getLsbD (op : BitVec 8) (arg : Word) (i : Nat) :
    BitVec.getLsbD (w := 72) (op ++ arg) i = if i < 64 then arg.getLsbD i else op.getLsbD (i - 64) :=
  (BitVec.getLsbD_append (x := op) (y := arg) (i := i)).trans (by by_cases h : i < 64 <;> simp [h])

@[simp] theorem opField_append (op : BitVec 8) (arg : Word) : opField (op ++ arg) = op := by
  apply BitVec.eq_of_getLsbD_eq
  intro i hi
  rw [opField, BitVec.getLsbD_extractLsb', fields_getLsbD, if_neg (by omega), show 64 + i - 64 = i by omega]
  simp [hi]

@[simp] theorem argField_append (op : BitVec 8) (arg : Word) : argField (op ++ arg) = arg := by
  apply BitVec.eq_of_getLsbD_eq
  intro i hi
  rw [argField, BitVec.getLsbD_extractLsb', fields_getLsbD, if_pos (by omega), show 0 + i = i by omega]
  simp [hi]

/-- A word is its opcode field followed by its operand field. -/
theorem opField_append_argField (w : PortWord) : opField w ++ argField w = w := by
  apply BitVec.eq_of_getLsbD_eq
  intro i hi
  refine (fields_getLsbD (opField w) (argField w) i).trans ?_
  by_cases h : i < 64
  · rw [if_pos h, argField, BitVec.getLsbD_extractLsb', show 0 + i = i by omega]
    simp [h]
  · rw [if_neg h, opField, BitVec.getLsbD_extractLsb', show 64 + (i - 64) = i by omega]
    simp [show i - 64 < 8 by omega]

/-- Two words with the same fields are the same word. -/
theorem word_eq_of_fields {v w : PortWord} (ho : opField v = opField w) (ha : argField v = argField w) : v = w := by
  rw [← opField_append_argField v, ← opField_append_argField w, ho, ha]

end Sys2Proof
end

