-- ==== Sys2Proof/Laws/Stream.lean ====
section
/-! SUPPORT. The accumulator and the taken stream (spec/10_state.md R37, spec/20_memory.md R45, R46): fill and skip keep
the valid bits equal to the stream's last bits, and peek's value is the stream's. -/

namespace Sys2Proof.Machine

/-- The valid bits of `a` are the last bits of `bytes`, the next one first: `HoldsStream` of the accumulator alone. -/
abbrev Acc.Holds (a : Acc) (bytes : List Byte) : Prop :=
  a.remaining ≤ 8 * bytes.length ∧
    ∀ i, i < a.remaining → a.buffer.getMsbD i = streamBit bytes (8 * bytes.length - a.remaining + i)

theorem holdsStream_iff (s : State) : HoldsStream s ↔ s.acc.Holds s.taken := Iff.rfl

/-- An empty accumulator holds the end of any stream. -/
theorem Acc.holds_of_empty {a : Acc} (h : a.remaining = 0) (bytes : List Byte) : a.Holds bytes :=
  ⟨by omega, fun i hi => by omega⟩

/-- Skip moves the cursor (R37): the remaining valid bits are still the stream's last. -/
theorem Acc.drop_holds {a : Acc} {bytes : List Byte} (h : a.Holds bytes) {k : Nat} (hk : k ≤ a.remaining) :
    (a.drop k).Holds bytes := by
  refine ⟨by have := h.1; simp; omega, fun i hi => ?_⟩
  simp only [Acc.drop_remaining] at hi ⊢
  rw [Acc.drop_getMsbD, h.2 (i + k) (by omega)]
  congr 1
  have := h.1
  omega

/-- Fill extends the taken stream and the valid bits by the same bytes (R37, R80). -/
theorem Acc.absorb_holds {a : Acc} {bytes : List Byte} (h : a.Holds bytes) (more : List Byte)
    (hr : a.remaining + 8 * more.length ≤ 64) : (a.absorb more).Holds (bytes ++ more) := by
  have h1 := h.1
  refine ⟨by simp; omega, fun i hi => ?_⟩
  simp only [Acc.absorb_remaining, List.length_append] at hi ⊢
  have e : 8 * (bytes.length + more.length) - (a.remaining + 8 * more.length) = 8 * bytes.length - a.remaining := by
    omega
  rw [Acc.absorb_getMsbD more hr (by omega), e]
  by_cases hlt : i < a.remaining
  · rw [if_pos hlt, h.2 i hlt, streamBit_append_left _ _ (by omega)]
  · rw [if_neg hlt, if_pos hi,
      show 8 * bytes.length - a.remaining + i = 8 * bytes.length + (i - a.remaining) by omega, streamBit_append_right]

/-- R45, R46: the top `n` valid bits are the `n`-bit value of the stream at the cursor. -/
theorem Acc.top_streamValue {a : Acc} {bytes : List Byte} (h : a.Holds bytes) {n : Nat} (hn : n ≤ 64)
    (hr : n ≤ a.remaining) : (a.top n).toNat = streamValue bytes (8 * bytes.length - a.remaining) n := by
  have key : ∀ k, k ≤ n → (a.buffer >>> (64 - k)).toNat = streamValue bytes (8 * bytes.length - a.remaining) k := by
    intro k
    induction k with
    | zero =>
      intro _
      rw [streamValue, BitVec.toNat_ushiftRight, Nat.shiftRight_eq_div_pow]
      exact Nat.div_eq_of_lt a.buffer.isLt
    | succ k ih =>
      intro hk
      rw [streamValue, ← ih (by omega), ← h.2 k (by omega)]
      have e : 64 - k = (64 - (k + 1)) + 1 := by omega
      have hb : a.buffer.getMsbD k = (a.buffer >>> (64 - (k + 1))).getLsbD 0 := by
        rw [BitVec.getLsbD_ushiftRight, BitVec.getMsbD, show 64 - (k + 1) + 0 = 64 - 1 - k by omega]
        simp [show k < 64 by omega]
      rw [e, BitVec.toNat_ushiftRight, BitVec.toNat_ushiftRight, Nat.shiftRight_add, hb]
      simp only [BitVec.getLsbD, BitVec.toNat_ushiftRight, Nat.testBit_zero, Nat.shiftRight_one]
      generalize a.buffer.toNat >>> (64 - (k + 1)) = x
      have : x % 2 = 0 ∨ x % 2 = 1 := by omega
      rcases this with hx | hx <;> simp [hx] <;> omega
  rw [Acc.top_eq]
  exact key n (Nat.le_refl n)

end Sys2Proof.Machine
end

