-- ==== Sys2Proof/Laws/Invariant.lean ====
section
/-! SUPPORT. The block's invariant (spec/10_state.md R22, R23, R37, R38) through the micro-operations, a command's local
start, one atomic step of the engine, and a run of them; and that no fill asks for no byte (spec/40_accumulator.md R81). -/

namespace Sys2Proof.Machine

/-- Only the accumulator, the exchanges, the engine and the configuration matter to the invariant. -/
theorem blockInv_congr {s t : State} (h : BlockInv s) (h1 : t.acc = s.acc) (h2 : t.exchanges = s.exchanges)
    (h3 : t.engine = s.engine) (h4 : t.cfg = s.cfg) : BlockInv t := by
  refine ⟨by rw [h1]; exact h.accumulator, ?_, ?_⟩
  · rw [holdsStream_iff, h1, taken_eq_of_exchanges h2]; exact h.stream
  · have := h.engine; simp only [EngineWf, h3, h1, h4] at this ⊢; exact this

/-- R81: in a state that meets the invariant, the pending `SrcRead` asks for at least one byte. -/
theorem request_ne_zero {s : State} (h : BlockInv s) {cmd : Instr} {p : Progress}
    (he : s.engine = .busy cmd p ∨ s.engine = .waiting cmd p) : request s.acc p ≠ 0 := by
  have hp : ProgressWf s.acc cmd p = true := by
    have := h.engine
    rcases he with he | he <;> simp_all [EngineWf]
  have h64 := h.accumulator.1
  cases p with
  | filling got =>
    simp only [ProgressWf] at hp
    split at hp
    · rename_i w hw
      have hw64 := resultWidth_le hw
      simp [widthOverflow, alignmentOverflow, alignLimit, Acc.aligned] at hp
      have := Acc.cap_pos (a := s.acc) (n := count cmd) (by omega) (hp.1.2.imp (fun h => by simpa using h) id) (by omega)
      simp [request]; omega
    · cases hp
  | skipping owed =>
    cases cmd <;> simp [ProgressWf] at hp
    simp [request, Acc.cap, hp.2]
  | passing out want =>
    cases cmd <;> simp [ProgressWf] at hp
    simp [request]; omega

theorem blockInv_peekLoop {cmd : Instr} {w got : Nat} {s : State} (hw : resultWidth cmd = some w)
    (h1 : widthOverflow w (count cmd) = false) (h2 : alignmentOverflow s.acc (count cmd) = false)
    (ha : s.acc.Wf) (hh : s.acc.Holds s.taken) : BlockInv (peekLoop cmd got s) := by
  by_cases hc : count cmd ≤ s.acc.remaining
  · rw [peekLoop_held hc]
    unfold finishWidth
    simp only
    split
    · exact ⟨Acc.drop_wf ha hc, Acc.drop_holds hh hc, rfl⟩
    · exact ⟨ha, hh, rfl⟩
  · rw [peekLoop_short (by omega)]
    refine ⟨ha, hh, ?_⟩
    simp only [EngineWf, ProgressWf, hw]
    simp [h1, h2]; omega

theorem blockInv_skipLoop {n : Word} {owed : Nat} {s : State} (ho : owed ≤ n.toNat)
    (ha : s.acc.Wf) (hh : s.acc.Holds s.taken) : BlockInv (skipLoop (.skip n) owed s) := by
  have hk : min owed s.acc.remaining ≤ s.acc.remaining := Nat.min_le_right _ _
  simp only [skipLoop]
  split
  · exact ⟨Acc.drop_wf ha hk, Acc.drop_holds hh hk, rfl⟩
  · refine ⟨Acc.drop_wf ha hk, Acc.drop_holds hh hk, ?_⟩
    simp only [EngineWf, ProgressWf, Bool.and_eq_true, decide_eq_true_eq, Acc.drop_remaining]
    rename_i hne
    rcases Nat.le_total owed s.acc.remaining with h | h
    · rw [Nat.min_eq_left h] at hne; omega
    · rw [Nat.min_eq_right h] at hne ⊢; exact ⟨by omega, by simp⟩

theorem blockInv_deliver {cmd : Instr} {p : Progress} {bytes : List Byte} {st : SrcStatus} {s : State} {old : List Byte}
    (hp : ProgressWf s.acc cmd p = true) (ha : s.acc.Wf) (hh : s.acc.Holds old)
    (hl : bytes.length ≤ request s.acc p) (ht : s.taken = old ++ bytes) : BlockInv (deliver cmd p bytes st s) := by
  have habs : (∀ out want, p ≠ .passing out want) → s.acc.remaining + 8 * bytes.length ≤ 64 := by
    intro hne
    have := Acc.cap_fits ha.1
    cases p <;> simp [request] at hl hne <;> omega
  have hnil : bytes = [] → s.acc.Holds s.taken := by
    intro hb; rw [ht, hb, List.append_nil]; exact hh
  cases p with
  | filling got =>
    have hfit := habs (by simp)
    simp only [deliver, fillWith]
    split
    · rename_i hb
      simp at hb
      cases st
      · exact ⟨ha, hnil hb, hp⟩
      · exact ⟨ha, hnil hb, rfl⟩
    · simp only [ProgressWf] at hp
      split at hp
      · rename_i w hw
        simp only [Bool.and_eq_true, Bool.not_eq_true', decide_eq_true_eq] at hp
        refine blockInv_peekLoop hw hp.1.1 ?_ (Acc.absorb_wf _ ha hfit) ?_
        · have := hp.1.2
          simp [alignmentOverflow, Acc.aligned] at this ⊢
          omega
        · have := Acc.absorb_holds hh bytes hfit
          rw [← ht] at this; exact this
      · cases hp
  | skipping owed =>
    have hfit := habs (by simp)
    simp only [deliver, fillWith]
    split
    · rename_i hb
      simp at hb
      cases st
      · exact ⟨ha, hnil hb, hp⟩
      · exact ⟨ha, hnil hb, rfl⟩
    · simp only [ProgressWf] at hp
      split at hp
      · simp at hp
        refine blockInv_skipLoop hp.1.2 (Acc.absorb_wf _ ha hfit) ?_
        have := Acc.absorb_holds hh bytes hfit
        rw [← ht] at this; exact this
      · cases hp
  | passing out want =>
    simp only [ProgressWf] at hp
    split at hp
    · simp at hp
      exact ⟨ha, Acc.holds_of_empty hp.2 _, rfl⟩
    · cases hp

theorem blockInv_startOf {i : Instr} {s : State} (hp : i.port = .command) (h : BlockInv s) :
    BlockInv (startOf i s) := by
  have ha := h.accumulator
  have hh : s.acc.Holds s.taken := h.stream
  have width : ∀ cmd w, resultWidth cmd = some w → BlockInv (widthStart cmd w s) := by
    intro cmd w hw
    unfold widthStart
    split
    · exact ⟨ha, hh, rfl⟩
    · split
      · exact ⟨ha, hh, rfl⟩
      · exact blockInv_peekLoop hw (by simpa using ‹¬ widthOverflow _ _ = true›)
          (by simpa using ‹¬ alignmentOverflow _ _ = true›) ha hh
  have hk : s.acc.remaining % 8 ≤ s.acc.remaining := Nat.mod_le _ _
  cases i with
  | write d => simp [Instr.port] at hp
  | skip n => exact blockInv_skipLoop (Nat.le_refl _) ha hh
  | align => exact ⟨Acc.drop_wf ha hk, Acc.drop_holds hh hk, rfl⟩
  | isAligned => exact ⟨ha, hh, rfl⟩
  | len => exact ⟨ha, hh, rfl⟩
  | readBytes n =>
    have e : ∀ d, (s.acc.align.drain d).2 = s.acc.drop (s.acc.remaining % 8 + 8 * d) := by
      intro d; rw [Acc.drain_eq, Acc.align, Acc.drop_drop]
    simp only [startOf, readBytesStart]
    have hr : s.acc.align.remaining = s.acc.remaining - s.acc.remaining % 8 := rfl
    split
    · refine ⟨?_, ?_, rfl⟩
      · simp only [respond_acc, e]; exact Acc.drop_wf ha (by omega)
      · rw [holdsStream_iff]; simp only [respond_acc, e, taken_respond]; exact Acc.drop_holds hh (by omega)
    · refine ⟨?_, ?_, ?_⟩
      · simp only [e]; exact Acc.drop_wf ha (by omega)
      · rw [holdsStream_iff]; simp only [e]; exact Acc.drop_holds hh (by omega)
      · simp [EngineWf, ProgressWf, e]; omega
  | _ => exact width _ _ rfl

theorem blockInv_engineStep {s t : State} (h : BlockInv s) (hs : engineStep s = .next t) : BlockInv t := by
  have ha := h.accumulator
  have hh : s.acc.Holds s.taken := h.stream
  cases engineStep_move hs with
  | rests => exact h
  | takes cmd p he hw =>
    refine ⟨ha, hh, ?_⟩
    have := h.engine
    simp_all [EngineWf]
  | asks cmd p he hr hm =>
    have hp : ProgressWf s.acc cmd p = true := by have := h.engine; simp_all [EngineWf]
    exact blockInv_deliver (old := s.taken) hp ha hh (Source.answer_length_le _ _) (taken_record _ _ _ _)
  | blocks cmd p he hr hm hs =>
    refine ⟨ha, hh, ?_⟩
    have := h.engine
    simp_all [EngineWf]
  | pulls cmd p he hr hm hs =>
    have hp : ProgressWf s.acc cmd p = true := by have := h.engine; simp_all [EngineWf]
    exact blockInv_deliver (old := s.taken) hp ha hh (by simp [pulled]) (taken_record _ _ _ _)

theorem blockInv_runOn {s t : State} (h : BlockInv s) (hs : runOn s = .next t) : BlockInv t :=
  engineRun_induction (P := BlockInv) (fun _ _ h1 h2 => blockInv_engineStep h1 h2) _ h hs

theorem blockInv_exec {i : Instr} {s t : State} (h : BlockInv s) (hs : exec i s = .next t) : BlockInv t := by
  by_cases hp : i.port = .command
  · have hr := (exec_next hp hs).2
    exact blockInv_runOn (blockInv_startOf hp h) hr
  · cases i <;> simp [Instr.port] at hp
    obtain ⟨_, _, _, rfl⟩ := execWrite_next hs
    split <;> exact ⟨h.accumulator, h.stream, h.engine⟩

theorem engineRun_fault {P : State → Prop} (hstep : ∀ s t, P s → engineStep s = .next t → P t)
   (hn : ∀ s f, P s → engineStep s ≠ .fault f) (fuel : Nat) : ∀ {s f}, P s → engineRun fuel s ≠ .fault f := by
  induction fuel with
  | zero => intro s f hp h; cases h
  | succ fuel ih =>
    intro s f hp h
    rw [engineRun] at h
    split at h
    · split at h
      · rename_i u hu; exact ih (hstep _ _ hp hu) h
      · rename_i g hg; exact hn _ _ hp hg
      · cases h
    · cases h

theorem engineStep_not_fault {s : State} (h : BlockInv s) (f : Fault) : engineStep s ≠ .fault f := by
  intro hf
  obtain ⟨cmd, p, he, hr⟩ := engineStep_fault hf
  exact request_ne_zero h (Or.inl he) hr

theorem runOn_not_fault {s : State} (h : BlockInv s) (f : Fault) : runOn s ≠ .fault f :=
  engineRun_fault (P := BlockInv) (fun _ _ a b => blockInv_engineStep a b) (fun _ f a => engineStep_not_fault a f) _ h

end Sys2Proof.Machine
end

