-- ==== Sys2Proof/Laws/PerInstr.lean ====
section
/-! SUPPORT. Family `EncodedFields`: the encoding of each instruction holds its opcode and its operand in the fields of
R63, and its data bytes behind them (spec/30_encoding.md R63, R65, R76). -/

namespace Sys2Proof.Laws.EncodedFields

/-- The fields of an instruction's encoding. -/
def Statement (i : Instr) : Prop :=
  opField (encode i).word = i.opcode ∧ argField (encode i).word = i.operand ∧ (encode i).data = i.payload

theorem peek1 (n : Word) : Statement (.peek1 n) := ⟨opField_append _ _, argField_append _ _, rfl⟩
theorem read1 (n : Word) : Statement (.read1 n) := ⟨opField_append _ _, argField_append _ _, rfl⟩
theorem peek8 (n : Word) : Statement (.peek8 n) := ⟨opField_append _ _, argField_append _ _, rfl⟩
theorem read8 (n : Word) : Statement (.read8 n) := ⟨opField_append _ _, argField_append _ _, rfl⟩
theorem peek16 (n : Word) : Statement (.peek16 n) := ⟨opField_append _ _, argField_append _ _, rfl⟩
theorem read16 (n : Word) : Statement (.read16 n) := ⟨opField_append _ _, argField_append _ _, rfl⟩
theorem peek32 (n : Word) : Statement (.peek32 n) := ⟨opField_append _ _, argField_append _ _, rfl⟩
theorem read32 (n : Word) : Statement (.read32 n) := ⟨opField_append _ _, argField_append _ _, rfl⟩
theorem peek64 (n : Word) : Statement (.peek64 n) := ⟨opField_append _ _, argField_append _ _, rfl⟩
theorem read64 (n : Word) : Statement (.read64 n) := ⟨opField_append _ _, argField_append _ _, rfl⟩
theorem skip (n : Word) : Statement (.skip n) := ⟨opField_append _ _, argField_append _ _, rfl⟩
theorem align : Statement .align := ⟨opField_append _ _, argField_append _ _, rfl⟩
theorem isAligned : Statement .isAligned := ⟨opField_append _ _, argField_append _ _, rfl⟩
theorem readBytes (n : Word) : Statement (.readBytes n) := ⟨opField_append _ _, argField_append _ _, rfl⟩
theorem len : Statement .len := ⟨opField_append _ _, argField_append _ _, rfl⟩
theorem write (data : List Byte) : Statement (.write data) := ⟨opField_append _ _, argField_append _ _, rfl⟩

end Sys2Proof.Laws.EncodedFields
end

