-- ==== Sys2Proof/Laws/Rest.lean ====
section
/-! SUPPORT. Where a run rests (spec/70_reset_and_hazards.md R156, spec/42_buffered.md R123): finished, blocked, and that a
run that is either goes nowhere by itself. -/

namespace Sys2Proof.Machine

theorem not_writePending {s : State} : ¬ WritePending s ↔ s.producer = .idle ∧ s.writes = [] := by
  cases hp : s.producer <;> simp [WritePending, hp]

/-- R156: a blocked run is not finished. -/
theorem RunBlocked.not_finished {s : State} (h : RunBlocked s) : ¬ Finished s := by
  obtain ⟨⟨cmd, p, he, _⟩, _⟩ := h
  simp [Finished, he]

/-- R58, R156: with no lost wakeup, a blocked run has nothing left in its sink. -/
theorem RunBlocked.sink_empty {s : State} (h : RunBlocked s) (hw : NoLostWakeup s) : s.sink = [] := by
  obtain ⟨⟨cmd, p, he, h0⟩, hn⟩ := h
  by_contra hs
  have := hw cmd p he hs
  simp [h0, (not_writePending.mp hn).1] at this

/-- A producer with no `WRITE` pending has no step (log entry 8). -/
theorem producerTurn_rests {s : State} (h : ¬ WritePending s) : producerTurn s = .next s := by
  obtain ⟨hp, hw⟩ := not_writePending.mp h
  simp [producerTurn, hp, hw]

/-- When no turn is listed, nothing pends and the consumer side cannot move, the machine stays as it is. -/
theorem step_rests {s : State} (ht : s.turns = []) (hc : consumerCanMove s = false) (hn : ¬ WritePending s) :
    step s = .next s := by
  have hpop : popTurn s = s := by
    cases s
    simp_all [popTurn]
  have hturn : nextTurn s = .producer := by simp [nextTurn, ht, hc]
  rw [step, hturn, hpop]
  exact producerTurn_rests hn

/-- R120, R123, R156: a blocked run stays as it is until its environment moves. -/
theorem RunBlocked.step_rests {s : State} (h : RunBlocked s) (ht : s.turns = []) : step s = .next s := by
  obtain ⟨⟨cmd, p, he, h0⟩, hn⟩ := h
  exact Machine.step_rests ht (by simp [consumerCanMove, engineReady, he, h0]) hn

/-- R156: a finished run with no `WRITE` still to start stays as it is until its environment moves. -/
theorem Finished.step_rests {s : State} (h : Finished s) (hn : ¬ WritePending s) (ht : s.turns = []) :
    step s = .next s :=
  Machine.step_rests ht (by simp [consumerCanMove, h.1, h.2.1]) hn

end Sys2Proof.Machine
end

