-- ==== Sys2Proof/Tests/Slice0.lean ====
section
/-! SUPPORT. Tests: the words of the spec decode to their instructions, ill-formed terms are refused, and single steps give
the vectors of spec/95_test_vectors.md (named in each test's comment). Then one witness for every statement that has
hypotheses: concrete states and operands that meet them. -/

namespace Sys2Proof.Tests

open Sys2Proof Sys2Proof.Machine

/-! ### Small states -/

/-- The default data `S` of spec/95_test_vectors.md section 0. -/
def dataS : List Byte := [0xA5, 0x3C, 0xFF, 0x00, 0x12, 0x34, 0x56, 0x78, 0x9A, 0xBC]

/-- The configuration `DIRECT`, with the default parameters. -/
def directCfg : Config := { mode := .direct, sinkCapacity := none, partialEof := .unexpectedEndOfData }

/-- A fresh block in `DIRECT` on a source that makes these choices and is then greedy. -/
def onSource (choices : List Choice) (stream : List Byte) : State :=
  State.fresh directCfg { stream := stream, choices := choices, habit := .greedy, ended := false }

/-- A fresh block in `DIRECT` on a greedy source. -/
def direct (stream : List Byte) : State := onSource [] stream

/-- A block in `DIRECT` that holds these bits, on a greedy source with these bytes left. -/
def holding (buffer : Word) (remaining : Nat) (stream : List Byte) : State :=
  { direct stream with acc := { buffer := buffer, remaining := remaining } }

/-- A block in `BUFFERED` with these bytes in its sink. -/
def buffered (sink : List Byte) (wake : Bool) : State := { State.reset with sink := sink, wake := wake }

/-- A block in `BUFFERED` that holds the byte `b`, taken from its sink. -/
def tookByte (b : Byte) (sink : List Byte) (wake : Bool) : State :=
  { buffered sink wake with
    acc := { buffer := b.setWidth 64 <<< 56, remaining := 8 }, exchanges := [⟨8, [b], .ok⟩] }

/-- The block in `DIRECT` after `read1 1` on `S` (vector W2). -/
def afterRead1 : State :=
  { holding 0x4A79FE002468ACF0 63 [0x9A, 0xBC] with exchanges := [⟨8, dataS.take 8, .ok⟩] }

/-- What a test looks at: the accumulator, the responses and the source channel of a next state. -/
def seen : Host.Outcome State Fault Refusal → Option (Acc × List Response × List Exchange)
  | .next s => some (s.acc, s.responses, s.exchanges)
  | .fault _ => none
  | .refused _ => none

/-- The same of the buffered side: the accumulator, the sink, `wake` and the responses. -/
def seenSink : Host.Outcome State Fault Refusal → Option (Acc × List Byte × Bool × List Response)
  | .next s => some (s.acc, s.sink, s.wake, s.responses)
  | .fault _ => none
  | .refused _ => none

/-- A next state, whole. -/
def next? : Host.Outcome State Fault Refusal → Option State
  | .next s => some s
  | .fault _ => none
  | .refused _ => none

/-- The reason of a refusal. -/
def refusal? : Host.Outcome State Fault Refusal → Option Refusal
  | .next _ => none
  | .fault _ => none
  | .refused r => some r

/-- The engine of a next state. -/
def seenEngine : Host.Outcome State Fault Refusal → Option Engine
  | .next s => some s.engine
  | .fault _ => none
  | .refused _ => none

/-! ### Decoding: words written out from R63, R65 and R67 (op in bits 71 to 64, arg in bits 63 to 0) -/

theorem test_decode_peek1 : decodeCommand .direct 0x010000000000000001 = .instr (.peek1 1) := by decide
theorem test_decode_read1 : decodeCommand .direct 0x020000000000000001 = .instr (.read1 1) := by decide
theorem test_decode_peek8 : decodeCommand .direct 0x030000000000000008 = .instr (.peek8 8) := by decide
theorem test_decode_read8 : decodeCommand .direct 0x040000000000000003 = .instr (.read8 3) := by decide
theorem test_decode_peek16 : decodeCommand .direct 0x05000000000000000C = .instr (.peek16 12) := by decide
theorem test_decode_read16 : decodeCommand .direct 0x060000000000000010 = .instr (.read16 16) := by decide
theorem test_decode_peek32 : decodeCommand .direct 0x070000000000000020 = .instr (.peek32 32) := by decide
theorem test_decode_read32 : decodeCommand .direct 0x080000000000000014 = .instr (.read32 20) := by decide
theorem test_decode_peek64 : decodeCommand .direct 0x090000000000000040 = .instr (.peek64 64) := by decide
theorem test_decode_read64 : decodeCommand .direct 0x0A0000000100000001 = .instr (.read64 0x100000001) := by decide
theorem test_decode_skip : decodeCommand .direct 0x10FFFFFFFFFFFFFFFF = .instr (.skip 18446744073709551615) := by decide
theorem test_decode_align : decodeCommand .direct 0x110000000000000000 = .instr .align := by decide
theorem test_decode_isAligned : decodeCommand .direct 0x120000000000000000 = .instr .isAligned := by decide
theorem test_decode_readBytes : decodeCommand .direct 0x13000000000000000C = .instr (.readBytes 12) := by decide
theorem test_decode_len : decodeCommand .buffered 0x200000000000000000 = .instr .len := by decide
theorem test_decode_write :
    decodeWrite .buffered ⟨0x300000000000000003, [0x11, 0x22, 0x33]⟩ = .instr (.write [0x11, 0x22, 0x33]) := by decide

/-- The bits of `read8 3`, one by one: op `0000 0100`, then 62 zeros and `11`. -/
theorem test_decode_bits :
    decodeCommand .direct
      0b000001000000000000000000000000000000000000000000000000000000000000000011 = .instr (.read8 3) := by decide

/-- R70, at the edges of every reserved range of the command port. -/
theorem test_decode_reserved_low :
    decodeCommand .buffered 0x000000000000000000 = .reject .reservedOpcode ∧
    decodeCommand .buffered 0x0B0000000000000001 = .reject .reservedOpcode ∧
    decodeCommand .buffered 0x0F0000000000000000 = .reject .reservedOpcode ∧
    decodeCommand .buffered 0x140000000000000000 = .reject .reservedOpcode := by decide
theorem test_decode_reserved_high :
    decodeCommand .buffered 0x1F0000000000000000 = .reject .reservedOpcode ∧
    decodeCommand .buffered 0x210000000000000000 = .reject .reservedOpcode ∧
    decodeCommand .buffered 0x300000000000000000 = .reject .reservedOpcode ∧
    decodeCommand .buffered 0xFF0000000000000000 = .reject .reservedOpcode := by decide

/-- R69, R73: format `C0` with `arg ≠ 0` (vector K7), and `LEN` in `DIRECT` (vector Q10). -/
theorem test_decode_reserved_arg :
    decodeCommand .direct 0x110000000000000001 = .reject .nonzeroOperand ∧
    decodeCommand .direct 0x120000000000000001 = .reject .nonzeroOperand ∧
    decodeCommand .buffered 0x208000000000000000 = .reject .nonzeroOperand ∧
    decodeCommand .direct 0x200000000000000000 = .reject .lenInDirect := by decide

/-- R65, R70: the producer port. -/
theorem test_decode_reserved_write :
    decodeWrite .buffered ⟨0x310000000000000001, [0x00]⟩ = .reject .notWriteHeader ∧
    decodeWrite .buffered ⟨0x300000000000000002, [0x00]⟩ = .reject .lengthMismatch ∧
    decodeWrite .direct ⟨0x300000000000000000, []⟩ = .reject .noProducerPort := by decide

/-- R76's example and the last vectors of section 3, the other way. -/
theorem test_encode :
    encode (.read8 3) = ⟨0x040000000000000003, []⟩ ∧ encode (.skip 20) = ⟨0x100000000000000014, []⟩ ∧
    encode (.write [0x11, 0x22, 0x33]) = ⟨0x300000000000000003, [0x11, 0x22, 0x33]⟩ := by decide

/-- R77 and R76: the spellings, and two lines of spec/95_test_vectors.md. -/
theorem test_spelling :
    encode Instr.readbyte = ⟨0x040000000000000008, []⟩ ∧ encode Instr.peekbit = ⟨0x010000000000000001, []⟩ ∧
    encode Instr.readbit = ⟨0x020000000000000001, []⟩ ∧ (Instr.skip 20).line = "skip 20" ∧
    Instr.isAligned.line = "isaligned" := by decide

/-- R64, R71: the header of the response to K2's `align` (`OK 7`), and of B4's byte read (`EOD`, no byte). -/
theorem test_response_header :
    Response.header ⟨.ok, 7, []⟩ = 0x0000000000000000070000000000000000 ∧
    Response.header ⟨.endOfData, 0, []⟩ = 0x0300000000000000000000000000000000 ∧
    Response.header ⟨.ok, 0, [0x3C, 0xFF]⟩ = 0x0000000000000000000000000000000002 := by decide

/-- The table's numbering: the 72-bit word first, and the bytes of a `WRITE` above it. -/
theorem test_decodeTableWord :
    decodeTableWord 72 0x100000000000000014 = some (.skip 20) ∧
    decodeTableWord 72 0x300000000000000000 = some (.write []) ∧
    decodeTableWord 96 0x332211300000000000000003 = some (.write [0x11, 0x22, 0x33]) ∧
    decodeTableWord 72 0x300000000000000002 = some (.write [0x00, 0x00]) ∧
    decodeTableWord 72 0x0B0000000000000001 = none := by decide

/-! ### WellFormed: an ill-formed term for each check -/

theorem test_illFormed_len_in_direct : Instr.wellFormed .direct .len = false := by decide
theorem test_illFormed_write_in_direct : Instr.wellFormed .direct (.write [0x01]) = false := by decide
theorem test_illFormed_write_too_long : Instr.wellFormed .buffered (.write (List.replicate (2 ^ 64) 0x00)) = false := by
  rw [Instr.wellFormed, List.length_replicate]
  decide

/-! ### Fetching: the next step runs the placed word (R63, R65) -/

theorem test_fetch_command :
    next? (step (State.reset.withFetchWord 72 0x120000000000000000)) =
      some { State.reset with responses := [⟨.ok, 1, []⟩] } := by decide
theorem test_fetch_write :
    seenSink (step (State.reset.withFetchWord 80 0xAB300000000000000001)) =
      some (⟨0, 0⟩, [0xAB], true, []) := by decide
/-- A word placed in a state whose engine is in a command: the placed word is what the next step runs. -/
theorem test_fetch_in_a_command :
    seenSink (step ({ buffered [0x80] false with
        engine := .waiting (.skip 1) (.skipping 1), turns := [.producer] }.withFetchWord 72 0x010000000000000001)) =
      some (⟨0, 0⟩, [0x80], false, []) := by decide
/-- Reset with nothing placed: the block rests (R123, R156). -/
theorem test_reset_rests : next? (step State.reset) = some State.reset := by decide

/-! ### Width-typed commands (vectors A, W, X) -/

/-- W1. -/
theorem test_peek1 : seen (exec (.peek1 1) (direct dataS)) =
    some (⟨0xA53CFF0012345678, 64⟩, [⟨.ok, 1, []⟩], [⟨8, dataS.take 8, .ok⟩]) := by decide
/-- W2. -/
theorem test_read1 : seen (exec (.read1 1) (direct dataS)) =
    some (⟨0x4A79FE002468ACF0, 63⟩, [⟨.ok, 1, []⟩], [⟨8, dataS.take 8, .ok⟩]) := by decide
/-- W17: a read on an exhausted source. -/
theorem test_read1_exhausted : seen (exec (.read1 1) (direct [])) =
    some (⟨0, 0⟩, [⟨.unexpectedEndOfData, 0, []⟩], [⟨8, [], .endOfData⟩]) := by decide
/-- A6: `(0, OK)` twice, then a byte. -/
theorem test_peek8_try_again :
    seen (exec (.peek8 8) (onSource [⟨0, false⟩, ⟨0, false⟩, ⟨1, false⟩] [0x7F])) =
      some (⟨0x7F00000000000000, 8⟩, [⟨.ok, 0x7F, []⟩], [⟨8, [], .ok⟩, ⟨8, [], .ok⟩, ⟨8, [0x7F], .ok⟩]) := by decide
/-- A7: bytes together with `EndOfData`. -/
theorem test_peek8_bytes_with_eod : seen (exec (.peek8 8) (onSource [⟨1, true⟩] [0x42])) =
    some (⟨0x4200000000000000, 8⟩, [⟨.ok, 0x42, []⟩], [⟨8, [0x42], .endOfData⟩]) := by decide
/-- W4. -/
theorem test_read8 : seen (exec (.read8 3) (direct dataS)) =
    some (⟨0x29E7F80091A2B3C0, 61⟩, [⟨.ok, 5, []⟩], [⟨8, dataS.take 8, .ok⟩]) := by decide
/-- Section 3: `read8 0` executes to `WO 0`. -/
theorem test_read8_zero : seen (exec (.read8 0) (direct dataS)) =
    some (⟨0, 0⟩, [⟨.widthOverflow, 0, []⟩], []) := by decide
/-- A5, from the end state of A4: no request. -/
theorem test_peek16 : seen (exec (.peek16 16) (holding 0x29E7F80091A2B3C0 61 [])) =
    some (⟨0x29E7F80091A2B3C0, 61⟩, [⟨.ok, 0x29E7, []⟩], []) := by decide
/-- W13: 15 bits held, no new byte. -/
theorem test_peek16_exhausted : seen (exec (.peek16 16) (holding 0x4A78000000000000 15 [])) =
    some (⟨0x4A78000000000000, 15⟩, [⟨.endOfData, 0, []⟩], [⟨6, [], .endOfData⟩]) := by decide
/-- W6. -/
theorem test_read16 : seen (exec (.read16 16) (direct dataS)) =
    some (⟨0xFF00123456780000, 48⟩, [⟨.ok, 0xA53C, []⟩], [⟨8, dataS.take 8, .ok⟩]) := by decide
/-- A1: fill just below five valid bits; the value is the 21 valid bits of `0xA1E7F80000000000`. -/
theorem test_peek32_fill : seen (exec (.peek32 21) (holding 0xA000000000000000 5 [0x3C, 0xFF])) =
    some (⟨0xA1E7F80000000000, 21⟩, [⟨.ok, 0x143CFF, []⟩], [⟨7, [0x3C, 0xFF], .ok⟩]) := by decide
/-- A8: bytes obtained, but too few (D8). -/
theorem test_peek32_partial : seen (exec (.peek32 24) (direct [0x01, 0x02])) =
    some (⟨0x0102000000000000, 16⟩, [⟨.unexpectedEndOfData, 0, []⟩],
      [⟨8, [0x01, 0x02], .ok⟩, ⟨6, [], .endOfData⟩]) := by decide
/-- W8. -/
theorem test_read32 : seen (exec (.read32 20) (direct dataS)) =
    some (⟨0xF001234567800000, 44⟩, [⟨.ok, 0xA53CF, []⟩], [⟨8, dataS.take 8, .ok⟩]) := by decide
/-- X7: no rollback. -/
theorem test_read32_partial : seen (exec (.read32 32) (direct [0x01])) =
    some (⟨0x0100000000000000, 8⟩, [⟨.unexpectedEndOfData, 0, []⟩],
      [⟨8, [0x01], .ok⟩, ⟨7, [], .endOfData⟩]) := by decide
/-- A4, from the end state of A3: a source that delivers one byte at a time. -/
theorem test_peek64_trickle :
    (seen (exec (.peek64 56) { onSource (List.replicate 7 ⟨1, false⟩) (dataS.drop 1) with
        acc := ⟨0x2800000000000000, 5⟩ })).map (fun r => (r.1, r.2.1, r.2.2.map (fun e => e.max))) =
      some (⟨0x29E7F80091A2B3C0, 61⟩, [⟨.ok, 0x29E7F80091A2B3, []⟩], [7, 6, 5, 4, 3, 2, 1]) := by decide
/-- W14: `AlignmentOverflow` though 63 bits are held. -/
theorem test_peek64_unaligned : seen (exec (.peek64 57) (holding 0x4A79FE002468ACF0 63 [])) =
    some (⟨0x4A79FE002468ACF0, 63⟩, [⟨.alignmentOverflow, 0, []⟩], []) := by decide
/-- A12: a shift by 64. -/
theorem test_read64 : seen (exec (.read64 64) (direct (List.replicate 8 0xFF))) =
    some (⟨0, 0⟩, [⟨.ok, 0xFFFFFFFFFFFFFFFF, []⟩], [⟨8, List.replicate 8 0xFF, .ok⟩]) := by decide
/-- W16: `n` is checked in full, not truncated to 1. -/
theorem test_read64_wide_operand : seen (exec (.read64 0x100000001) (direct dataS)) =
    some (⟨0, 0⟩, [⟨.widthOverflow, 0, []⟩], []) := by decide

/-! ### SKIP, ALIGN, IS_ALIGNED, READ_BYTES (vectors A, B, K) -/

/-- A10: two fills. -/
theorem test_skip : seen (exec (.skip 70) (direct dataS)) =
    some (⟨0xAF00000000000000, 10⟩, [⟨.ok, 0, []⟩], [⟨8, dataS.take 8, .ok⟩, ⟨8, dataS.drop 8, .ok⟩]) := by decide
/-- K6, its last command: seven bits held, then the fill fails. -/
theorem test_skip_exhausted : seen (exec (.skip 8) (holding 0x0200000000000000 7 [])) =
    some (⟨0, 0⟩, [⟨.unexpectedEndOfData, 0, []⟩], [⟨8, [], .endOfData⟩]) := by decide
/-- K2. -/
theorem test_align : seen (exec .align (holding 0x4A79FE002468ACF0 63 [])) =
    some (⟨0x3CFF001234567800, 56⟩, [⟨.ok, 7, []⟩], []) := by decide
/-- K1, its second and fourth commands. -/
theorem test_isAligned : (seen (exec .isAligned (holding 0xA79FE002468ACF00 59 []))).map (fun r => r.2.1) =
    some [⟨.ok, 0, []⟩] ∧
    (seen (exec .isAligned (holding 0x3CFF001234567800 56 []))).map (fun r => r.2.1) = some [⟨.ok, 1, []⟩] := by decide
/-- B1, its second command. -/
theorem test_readBytes : seen (exec (.readBytes 5) (holding 0x3040506070800000 44 [0x09, 0x0A])) =
    some (⟨0, 0⟩, [⟨.ok, 0, [0x04, 0x05, 0x06, 0x07, 0x08]⟩], []) := by decide
/-- B3, its second command: seven bytes drained, and a short pass-through that is not retried. -/
theorem test_readBytes_pass_through :
    seen (exec (.readBytes 12) (holding 0x3CFF001234567800 56 [0x9A, 0xBC])) =
      some (⟨0, 0⟩, [⟨.ok, 0, [0x3C, 0xFF, 0x00, 0x12, 0x34, 0x56, 0x78, 0x9A, 0xBC]⟩],
        [⟨5, [0x9A, 0xBC], .ok⟩]) := by decide

/-! ### LEN, WRITE and the wake flag (vectors Q, P) -/

/-- Q1, its first `len`. -/
theorem test_len : seenSink (exec .len (buffered [0xAB, 0xCD, 0xEF] true)) =
    some (⟨0, 0⟩, [0xAB, 0xCD, 0xEF], true, [⟨.ok, 3, []⟩]) := by decide
/-- P4 step 5: the sink grows at its tail, the post is a no-op on a pending token. -/
theorem test_write : seenSink (exec (.write [0xEF]) (buffered [0xCD] true)) =
    some (⟨0, 0⟩, [0xCD, 0xEF], true, []) := by decide
/-- P6 step 8 (R116): a zero-length write still posts. -/
theorem test_write_empty : seenSink (exec (.write []) (buffered [] false)) = some (⟨0, 0⟩, [], true, []) := by decide
/-- P4 step 6: the take, the pull of what the sink holds, and the answer. -/
theorem test_woken : seenSink (step { tookByte 0xAB [0xCD, 0xEF] true with
      engine := .waiting (.read16 16) (.filling 1) }) =
    some (⟨0xEF00000000000000, 8⟩, [], false, [⟨.ok, 0xABCD, []⟩]) := by decide
/-- P4 step 11: the skip resumes with the 12 bits it owes; it does not restart. -/
theorem test_woken_skip : seenSink (step { buffered [0x11, 0x22, 0x33] true with
      engine := .waiting (.skip 20) (.skipping 12) }) =
    some (⟨0x2330000000000000, 12⟩, [], false, [⟨.ok, 0, []⟩]) := by decide
/-- P5 step 3: a failed pull takes the stale token, retries and blocks. -/
theorem test_stale_token : seenSink (exec (.read8 8) (buffered [] true)) = some (⟨0, 0⟩, [], false, []) ∧
    seenEngine (exec (.read8 8) (buffered [] true)) = some (.waiting (.read8 8) (.filling 0)) := by decide
/-- P6 step 3: a blocked engine has no step though the sink holds a byte whose post is still to come. -/
theorem test_blocked_before_post :
    next? (engineTurn { buffered [0x5A] false with
        engine := .waiting (.peek8 8) (.filling 0), producer := .posting }) =
      some { buffered [0x5A] false with engine := .waiting (.peek8 8) (.filling 0), producer := .posting } := by decide
/-- P6 steps 2 and 4: the two halves of a `WRITE` at two turns of the producer. -/
theorem test_append_then_post :
    next? (step { State.reset with
        turns := [.producer, .producer], writes := [⟨0x300000000000000001, [0x5A]⟩] }) =
      some { State.reset with sink := [0x5A], producer := .posting, turns := [.producer] } ∧
    next? (step { State.reset with sink := [0x5A], producer := .posting, turns := [.producer] }) =
      some { State.reset with sink := [0x5A], wake := true } := by decide
/-- Q9, from its block: the byte read keeps the drained bytes. -/
theorem test_woken_readBytes : seenSink (step { buffered [0x09] true with
      engine := .waiting (.readBytes 4) (.passing [0x02, 0x03] 2) }) =
    some (⟨0, 0⟩, [], false, [⟨.ok, 0, [0x02, 0x03, 0x09]⟩]) := by decide

/-! ### Where a run rests (R156) -/

/-- P4 at its end: finished, also while a `WRITE` is still to start. -/
theorem test_finished :
    Finished State.reset ∧ Finished { State.reset with writes := [⟨0x300000000000000001, [0xAB]⟩] } := by
  unfold Finished; decide
/-- Q2 between its two steps: a started `WRITE` has not posted, so the run is not finished. -/
theorem test_not_finished_before_post : ¬ Finished { buffered [0xCD] false with producer := .posting } := by
  unfold Finished; decide
/-- P6 step 1: blocked; and P6 step 3: not blocked, the post of the `WRITE` is pending. -/
theorem test_blocked :
    RunBlocked { buffered [] false with engine := .waiting (.peek8 8) (.filling 0) } ∧
    ¬ RunBlocked { buffered [0x5A] false with
        engine := .waiting (.peek8 8) (.filling 0), producer := .posting } :=
  ⟨⟨⟨_, _, rfl, rfl⟩, by unfold WritePending; decide⟩, fun h => h.2 (.inl rfl)⟩

/-! ### Witnesses: for each statement with hypotheses, states and operands that meet all of them -/

theorem test_witness_DecodeOfEncode :
    (Instr.skip 0xFFFFFFFFFFFFFFFF).wellFormed .direct = true ∧ Instr.len.wellFormed .buffered = true ∧
    (Instr.write [0xAB]).wellFormed .buffered = true := by decide

theorem test_witness_EncodeOfDecoded :
    decodeCommand .direct 0x0AFFFFFFFFFFFFFFFF = .instr (.read64 0xFFFFFFFFFFFFFFFF) ∧
    decodeCommand .direct 0x120000000000000000 = .instr .isAligned ∧
    decodeWrite .buffered ⟨0x300000000000000001, [0xAB]⟩ = .instr (.write [0xAB]) := by decide

/-- The engine's turn, listed and not, with a reserved word at the port. -/
def reservedAtPort : State := { direct [] with commands := [0x200000000000000000], turns := [.engine] }
/-- The producer's turn with a reserved header at the port. -/
def reservedWrite : State := { buffered [] false with writes := [⟨0x310000000000000001, [0x00]⟩] }

theorem test_witness_ReservedWordsAreRefused :
    (nextTurn reservedAtPort = .engine ∧ reservedAtPort.engine = .idle ∧
      reservedAtPort.commands = 0x200000000000000000 :: [] ∧
      decodeCommand reservedAtPort.cfg.mode 0x200000000000000000 = .reject .lenInDirect) ∧
    (nextTurn reservedWrite = .producer ∧ reservedWrite.producer = .idle ∧
      reservedWrite.writes = ⟨0x310000000000000001, [0x00]⟩ :: [] ∧ reservedWrite.cfg.mode = .buffered ∧
      opField 0x310000000000000001 ≠ 0x30) := by decide

/-- A command at its port and a `WRITE` at its own; no turn is listed. -/
def bothPorts : State :=
  { buffered [] false with commands := [0x200000000000000000], writes := [⟨0x300000000000000001, [0xAB]⟩] }

theorem test_witness_StepRunsTheDecodedInstruction :
    (nextTurn bothPorts = .engine ∧ bothPorts.engine = .idle ∧ bothPorts.commands = 0x200000000000000000 :: [] ∧
      decodeCommand bothPorts.cfg.mode 0x200000000000000000 = .instr .len) ∧
    (nextTurn { bothPorts with turns := [.producer, .engine] } = .producer ∧ bothPorts.producer = .idle ∧
      bothPorts.writes = ⟨0x300000000000000001, [0xAB]⟩ :: [] ∧
      decodeWrite bothPorts.cfg.mode ⟨0x300000000000000001, [0xAB]⟩ = .instr (.write [0xAB])) := by decide

/-- `read16 16` waiting for its second byte, which the sink has, with a token (P4 after step 5). -/
def wokenRead : State :=
  { tookByte 0xAB [0xCD, 0xEF] true with engine := .waiting (.read16 16) (.filling 1) }
/-- `read16 16` of P4 after its take: it is to pull. -/
def busyRead : State := { tookByte 0xAB [0xCD] false with engine := .busy (.read16 16) (.filling 1) }

theorem test_witness_StepResumesTheCommandInProgress : nextTurn busyRead = .engine ∧ busyRead.engine ≠ .idle := by decide

theorem test_witness_WidthOverflowChangesNothing :
    ((8, .peek8 0) ∈ widthForms 0 ∧ (64, .read64 65) ∈ widthForms 65 ∧ (direct []).engine = .idle ∧
      ((0 : Word).toNat = 0 ∨ 8 < (0 : Word).toNat) ∧ ((65 : Word).toNat = 0 ∨ 64 < (65 : Word).toNat)) ∧
    (next? (exec (.peek8 9) (direct [])) =
      some { direct [] with responses := [⟨.widthOverflow, 0, []⟩] }) := by decide

theorem test_witness_AlignmentOverflowChangesNothing :
    ((holding 0x4A79FE002468ACF0 63 []).engine = .idle ∧ 56 < (57 : Word).toNat ∧ (64 : Word).toNat ≤ 64 ∧
      (holding 0x4A79FE002468ACF0 63 []).acc.remaining % 8 ≠ 0) ∧
    (next? (exec (.read64 64) (holding 0x4A79FE002468ACF0 63 [])) =
      some { holding 0x4A79FE002468ACF0 63 [] with responses := [⟨.alignmentOverflow, 0, []⟩] }) := by decide

theorem test_witness_PeekReturnsHeldBits :
    (64, .peek64 56) ∈ peekForms 56 ∧ afterRead1.engine = .idle ∧ Admitted afterRead1 64 56 ∧
      (56 : Word).toNat ≤ afterRead1.acc.remaining := by unfold Admitted; decide

theorem test_witness_ReadReturnsAndConsumesHeldBits :
    (1, .read1 1) ∈ readForms 1 ∧ afterRead1.engine = .idle ∧ Admitted afterRead1 1 1 ∧
      (1 : Word).toNat ≤ afterRead1.acc.remaining := by unfold Admitted; decide

theorem test_witness_PeekFillsFromTheSink :
    (16, .peek16 16) ∈ peekForms 16 ∧ Uninterrupted (tookByte 0xAB [0xCD] true) ∧
      (tookByte 0xAB [0xCD] true).cfg.mode = .buffered ∧ Admitted (tookByte 0xAB [0xCD] true) 16 16 ∧
      (tookByte 0xAB [0xCD] true).acc.remaining < (16 : Word).toNat ∧
      (16 : Word).toNat ≤ (tookByte 0xAB [0xCD] true).sinkBits := by unfold Admitted Uninterrupted; decide

theorem test_witness_ReadFillsFromTheSink :
    (64, .read64 64) ∈ readForms 64 ∧ Uninterrupted (buffered (List.replicate 8 0xFF) false) ∧
      (buffered (List.replicate 8 0xFF) false).cfg.mode = .buffered ∧
      Admitted (buffered (List.replicate 8 0xFF) false) 64 64 ∧
      (buffered (List.replicate 8 0xFF) false).acc.remaining < (64 : Word).toNat ∧
      (64 : Word).toNat ≤ (buffered (List.replicate 8 0xFF) false).sinkBits := by
  unfold Admitted Uninterrupted; decide

/-- A source that says `(0, OK)`, delivers a byte, and delivers another one with `EndOfData` (R43(b), R44). -/
def slow : State := onSource [⟨0, false⟩, ⟨1, false⟩, ⟨1, true⟩] [0x42, 0x43]

/-- The three exchanges of a command of 16 bits on it. -/
def slowFills : List Exchange := [⟨8, [], .ok⟩, ⟨8, [0x42], .ok⟩, ⟨7, [0x43], .endOfData⟩]

/-- `slow` once all is delivered. -/
def slowEnd : Source := { stream := [], choices := [], habit := .greedy, ended := false }

theorem test_slow_fills :
    FillRun 16 slow.acc slow.source slowFills { buffer := 0x4243000000000000, remaining := 16 } slowEnd := by
  simp only [slowFills, FillRun]
  decide

/-- R43(b), R44, R80: the 16-bit read on `slow`. -/
theorem test_read_tries_again :
    next? (exec (.read16 16) slow) =
      some { slow with source := slowEnd, exchanges := slowFills, responses := [⟨.ok, 0x4243, []⟩] } := by decide

/-- A peek and a skip whose fill the source answers `(0, OK)`, and another turn after the engine's. -/
def tryingPeek : State := { slow with engine := .busy (.peek16 16) (.filling 0), turns := [.engine, .engine] }
def tryingSkip : State := { slow with engine := .busy (.skip 9) (.skipping 9), turns := [.engine, .reset] }

theorem test_witness_PeekFillsFromTheSource :
    ((16, .peek16 16) ∈ peekForms 16 ∧ Uninterrupted slow ∧ slow.cfg.mode = .direct ∧ Admitted slow 16 16 ∧
      FillRun (16 : Word).toNat slow.acc slow.source slowFills { buffer := 0x4243000000000000, remaining := 16 } slowEnd ∧
      (16 : Word).toNat ≤ 16) ∧
    ((32, .peek32 21) ∈ peekForms 21 ∧ Uninterrupted (holding 0xA000000000000000 5 [0x3C, 0xFF]) ∧
      Admitted (holding 0xA000000000000000 5 [0x3C, 0xFF]) 32 21 ∧
      FillRun (21 : Word).toNat { buffer := 0xA000000000000000, remaining := 5 }
        (holding 0xA000000000000000 5 [0x3C, 0xFF]).source [⟨7, [0x3C, 0xFF], .ok⟩]
        { buffer := 0xA1E7F80000000000, remaining := 21 } slowEnd) ∧
    (BlockInv tryingPeek ∧ tryingPeek.turns = .engine :: .engine :: [] ∧
      tryingPeek.engine = .busy (.peek16 16) (.filling 0) ∧ tryingPeek.cfg.mode = .direct ∧
      (tryingPeek.source.answer 8).1 = [] ∧ (tryingPeek.source.answer 8).2.1 = .ok) ∧
    (BlockInv tryingSkip ∧ tryingSkip.turns = .engine :: .reset :: [] ∧
      tryingSkip.engine = .busy (.skip 9) (.skipping 9) ∧ tryingSkip.cfg.mode = .direct ∧
      (tryingSkip.source.answer 8).1 = [] ∧ (tryingSkip.source.answer 8).2.1 = .ok) :=
  ⟨⟨by decide, ⟨rfl, rfl⟩, rfl, by unfold Admitted; decide, test_slow_fills, by decide⟩,
    ⟨by decide, ⟨rfl, rfl⟩, by unfold Admitted; decide, by simp only [FillRun]; decide⟩,
    ⟨⟨by decide, by decide, by decide⟩, by decide⟩, ⟨⟨by decide, by decide, by decide⟩, by decide⟩⟩

theorem test_witness_ReadFillsFromTheSource :
    ((16, .read16 16) ∈ readForms 16 ∧ Uninterrupted slow ∧ slow.cfg.mode = .direct ∧ Admitted slow 16 16 ∧
      FillRun (16 : Word).toNat slow.acc slow.source slowFills { buffer := 0x4243000000000000, remaining := 16 } slowEnd ∧
      (16 : Word).toNat ≤ 16) ∧
    ((8, .read8 8) ∈ readForms 8 ∧ Uninterrupted (onSource [⟨1, true⟩] [0x42]) ∧
      Admitted (onSource [⟨1, true⟩] [0x42]) 8 8 ∧
      FillRun (8 : Word).toNat { buffer := 0, remaining := 0 } (onSource [⟨1, true⟩] [0x42]).source
        [⟨8, [0x42], .endOfData⟩] { buffer := 0x4200000000000000, remaining := 8 } slowEnd) :=
  ⟨⟨by decide, ⟨rfl, rfl⟩, rfl, by unfold Admitted; decide, test_slow_fills, by decide⟩,
    ⟨by decide, ⟨rfl, rfl⟩, by unfold Admitted; decide, by simp only [FillRun]; decide⟩⟩

theorem test_witness_ExhaustedSourceEndsWidthCommands :
    (16, .peek16 16) ∈ widthForms 16 ∧ (16, .read16 16) ∈ widthForms 16 ∧
      Uninterrupted (holding 0x4A78000000000000 15 []) ∧ (holding 0x4A78000000000000 15 []).cfg.mode = .direct ∧
      Admitted (holding 0x4A78000000000000 15 []) 16 16 ∧
      (holding 0x4A78000000000000 15 []).acc.remaining < (16 : Word).toNat ∧
      (holding 0x4A78000000000000 15 []).source.answer 6 =
        ([], .endOfData, { stream := [], choices := [], habit := .greedy, ended := true }) := by
  unfold Admitted Uninterrupted; decide

theorem test_witness_PartialFillKeepsItsBytes :
    (32, .peek32 24) ∈ widthForms 24 ∧ Uninterrupted (direct [0x01, 0x02]) ∧
      (direct [0x01, 0x02]).cfg.mode = .direct ∧ Admitted (direct [0x01, 0x02]) 32 24 ∧
      (direct [0x01, 0x02]).source.answer 8 =
        ([0x01, 0x02], .ok, { stream := [], choices := [], habit := .greedy, ended := false }) ∧
      ([0x01, 0x02] : List Byte) ≠ [] ∧ 0 + 8 * 2 < (24 : Word).toNat ∧
      Source.answer { stream := [], choices := [], habit := .greedy, ended := false } 6 =
        ([], .endOfData, { stream := [], choices := [], habit := .greedy, ended := true }) := by
  unfold Admitted Uninterrupted; decide

theorem test_witness_WidthCommandBlocksOnEmptySink :
    (16, .read16 9) ∈ widthForms 9 ∧ Uninterrupted (tookByte 0xAB [] true) ∧
      (tookByte 0xAB [] true).cfg.mode = .buffered ∧ Admitted (tookByte 0xAB [] true) 16 9 ∧
      (tookByte 0xAB [] true).acc.remaining < (9 : Word).toNat ∧ (tookByte 0xAB [] true).sink = [] := by
  unfold Admitted Uninterrupted; decide

/-- States that meet the invariant and are not reset: W2's end in `DIRECT`, one byte held in `BUFFERED`, and the two of
P4. -/
theorem test_inv_afterRead1 : BlockInv afterRead1 := ⟨by decide, by decide, by decide⟩
theorem test_inv_tookByte : BlockInv (tookByte 0xAB [0xCD, 0xEF] true) := ⟨by decide, by decide, by decide⟩
theorem test_inv_tookByte_empty : BlockInv (tookByte 0xAB [] true) := ⟨by decide, by decide, by decide⟩
theorem test_inv_wokenRead : BlockInv wokenRead := ⟨by decide, by decide, by decide⟩
theorem test_inv_busyRead : BlockInv busyRead := ⟨by decide, by decide, by decide⟩

theorem test_witness_WidthCommandsDeliverTheStream :
    BlockInv (tookByte 0xAB [0xCD, 0xEF] true) ∧ (16, .read16 16) ∈ widthForms 16 ∧
      ∃ t, exec (.read16 16) (tookByte 0xAB [0xCD, 0xEF] true) = .next t ∧
        t.responses = (tookByte 0xAB [0xCD, 0xEF] true).responses ++ [⟨.ok, 0xABCD, []⟩] :=
  ⟨test_inv_tookByte, by decide, _, rfl, by decide⟩

theorem test_witness_UnansweredWidthCommandsKeepTheCursor :
    BlockInv (tookByte 0xAB [] true) ∧ (16, .peek16 16) ∈ widthForms 16 ∧
      ∃ t, exec (.peek16 16) (tookByte 0xAB [] true) = .next t ∧
        ∀ v d, t.responses ≠ (tookByte 0xAB [] true).responses ++ [⟨.ok, v, d⟩] :=
  ⟨test_inv_tookByte_empty, by decide, _, rfl, by intro v d h; cases h⟩

theorem test_witness_PeekTwiceIsTheSame :
    (8, .peek8 8) ∈ peekForms 8 ∧ ∃ t, exec (.peek8 8) (direct dataS) = .next t ∧
      t.responses = (direct dataS).responses ++ [⟨.ok, 0xA5, []⟩] := ⟨by decide, _, rfl, by decide⟩

theorem test_witness_ReadIsPeekThenSkip :
    (peekForms 12)[2]? = some (16, .peek16 12) ∧ (readForms 12)[2]? = some (16, .read16 12) ∧
      (∃ t, exec (.peek16 12) (direct dataS) = .next t ∧
        t.responses = (direct dataS).responses ++ [⟨.ok, 0xA53, []⟩]) ∧
      (∃ t, exec (.peek16 12) (direct [0x01]) = .next t ∧
        t.responses = (direct [0x01]).responses ++ [⟨.unexpectedEndOfData, 0, []⟩]) ∧
      (∃ t, exec (.peek16 12) (direct []) = .next t ∧
        t.responses = (direct []).responses ++ [⟨.endOfData, 0, []⟩]) :=
  ⟨by decide, by decide, ⟨_, rfl, by decide⟩, ⟨_, rfl, by decide⟩, ⟨_, rfl, by decide⟩⟩

theorem test_witness_SkipConsumesHeldBits :
    afterRead1.engine = .idle ∧ (63 : Word).toNat ≤ afterRead1.acc.remaining := by decide

theorem test_witness_SkipCompletesFromTheSink :
    BlockInv (tookByte 0xAB [0xCD, 0xEF] true) ∧ Uninterrupted (tookByte 0xAB [0xCD, 0xEF] true) ∧
      (tookByte 0xAB [0xCD, 0xEF] true).cfg.mode = .buffered ∧
      (24 : Word).toNat ≤ (tookByte 0xAB [0xCD, 0xEF] true).sinkBits := ⟨test_inv_tookByte, ⟨rfl, rfl⟩, rfl, by decide⟩

theorem test_witness_SkipCompletesFromTheSource :
    BlockInv afterRead1 ∧ Uninterrupted afterRead1 ∧ afterRead1.cfg.mode = .direct ∧ afterRead1.source.Greedy ∧
      (79 : Word).toNat ≤ afterRead1.acc.remaining + 8 * afterRead1.source.stream.length :=
  ⟨test_inv_afterRead1, ⟨rfl, rfl⟩, rfl, ⟨rfl, rfl, rfl⟩, by decide⟩

theorem test_witness_SkipRunsOutOfData :
    BlockInv afterRead1 ∧ Uninterrupted afterRead1 ∧ afterRead1.cfg.mode = .direct ∧ afterRead1.source.Greedy ∧
      afterRead1.acc.remaining + 8 * afterRead1.source.stream.length < (80 : Word).toNat :=
  ⟨test_inv_afterRead1, ⟨rfl, rfl⟩, rfl, ⟨rfl, rfl, rfl⟩, by decide⟩

theorem test_witness_SkipsAddUp :
    (5 : Word).toNat + (65 : Word).toNat < 2 ^ 64 ∧ Uninterrupted (direct dataS) ∧
      ∃ t, exec (.skip 5) (direct dataS) = .next t ∧ t.responses = (direct dataS).responses ++ [⟨.ok, 0, []⟩] ∧
        ∃ u, exec (.skip 65) t = .next u ∧ u.responses = t.responses ++ [⟨.ok, 0, []⟩] :=
  ⟨by decide, ⟨rfl, rfl⟩, _, rfl, by decide, _, rfl, by decide⟩

theorem test_witness_SkipBlocksOnEmptySink :
    Uninterrupted (tookByte 0xAB [] true) ∧ (tookByte 0xAB [] true).cfg.mode = .buffered ∧
      (tookByte 0xAB [] true).acc.remaining < (9 : Word).toNat ∧ (tookByte 0xAB [] true).acc.remaining ≤ 64 ∧
      (tookByte 0xAB [] true).sink = [] := by unfold Uninterrupted; decide

theorem test_witness_idle_engine : afterRead1.engine = .idle ∧ (direct []).engine = .idle := by decide

theorem test_witness_ReadBytesDrainsHeldBytes :
    afterRead1.engine = .idle ∧ (7 : Word).toNat ≤ afterRead1.acc.remaining / 8 ∧
      (0 : Word).toNat ≤ afterRead1.acc.remaining / 8 := by decide

theorem test_witness_ReadBytesPassesThroughToTheSource :
    Uninterrupted afterRead1 ∧ afterRead1.cfg.mode = .direct ∧ afterRead1.acc.remaining / 8 < (12 : Word).toNat ∧
      afterRead1.source.answer ((12 : Word).toNat - afterRead1.acc.remaining / 8) =
        ([0x9A, 0xBC], .ok, { stream := [], choices := [], habit := .greedy, ended := false }) := by
  unfold Uninterrupted; decide

theorem test_witness_ReadBytesPassesThroughToTheSink :
    Uninterrupted (tookByte 0xAB [0xCD, 0xEF] true) ∧ (tookByte 0xAB [0xCD, 0xEF] true).cfg.mode = .buffered ∧
      (tookByte 0xAB [0xCD, 0xEF] true).acc.remaining / 8 < (2 : Word).toNat ∧
      (tookByte 0xAB [0xCD, 0xEF] true).sink ≠ [] := by unfold Uninterrupted; decide

theorem test_witness_ReadBytesBlocksOnEmptySink :
    Uninterrupted (tookByte 0xAB [] true) ∧ (tookByte 0xAB [] true).cfg.mode = .buffered ∧
      (tookByte 0xAB [] true).acc.remaining / 8 < (2 : Word).toNat ∧ (tookByte 0xAB [] true).sink = [] := by
  unfold Uninterrupted; decide

theorem test_witness_ReadBytesLandsOnTheByteBoundary :
    BlockInv afterRead1 ∧ ∃ t, exec (.readBytes 2) afterRead1 = .next t ∧
      t.responses = afterRead1.responses ++ [⟨.ok, 0, [0x3C, 0xFF]⟩] := ⟨test_inv_afterRead1, _, rfl, by decide⟩

theorem test_witness_LenCountsTheSink :
    (buffered [0xAB] true).engine = .idle ∧ (buffered [0xAB] true).cfg.mode = .buffered ∧
      (buffered [0xAB] true).sink.length < 2 ^ 64 := by decide

/-- A sink of two bytes at most. -/
def bounded (sink : List Byte) : State :=
  { buffered sink false with cfg := { mode := .buffered, sinkCapacity := some 2, partialEof := .endOfData } }

theorem test_witness_WriteAppendsThenPosts :
    (bounded [0xAB]).cfg.mode = .buffered ∧ (bounded [0xAB]).producer = .idle ∧ (bounded [0xAB]).turns = [] ∧
      (∀ capacity, (bounded [0xAB]).cfg.sinkCapacity = some capacity → [0xAB].length + [0xCD].length ≤ capacity) :=
  ⟨rfl, rfl, rfl, by intro c h; cases h; decide⟩

theorem test_witness_AppendAndPostAreTwoSteps :
    ((bounded [0xAB]).cfg.mode = .buffered ∧ (bounded [0xAB]).producer = .idle ∧
      { bounded [0xAB] with turns := [.engine] }.turns ≠ [] ∧
      (∀ capacity, (bounded [0xAB]).cfg.sinkCapacity = some capacity → [0xAB].length + [0xCD].length ≤ capacity)) ∧
    (nextTurn { bounded [0xAB] with producer := .posting } = .producer ∧
      { bounded [0xAB] with producer := .posting }.producer = .posting) :=
  ⟨⟨rfl, rfl, by decide, by intro c h; cases h; decide⟩, by decide⟩

theorem test_witness_WritesCoalesce :
    (buffered [] false).turns = [] ∧ ∃ t, exec (.write [0xCD]) (buffered [] false) = .next t ∧
      ∃ u, exec (.write [0xEF]) t = .next u := ⟨rfl, _, rfl, _, rfl⟩

theorem test_witness_RefusedTransactions :
    ((bounded [0xAB]).cfg.mode = .buffered ∧ (bounded [0xAB]).producer = .idle ∧
      (bounded [0xAB]).cfg.sinkCapacity = some 2 ∧ 2 < [0xAB].length + [0xCD, 0xEF].length) ∧
    (direct []).cfg.mode = .direct ∧
    (Instr.align.port = .command ∧ wokenRead.engine ≠ .idle ∧ Instr.align.wellFormed wokenRead.cfg.mode = true) ∧
    ({ bounded [0xAB] with producer := .posting }.cfg.mode = .buffered ∧
      { bounded [0xAB] with producer := .posting }.producer = .posting) := by decide

theorem test_witness_TakeAndFailedPullKeepProgress :
    ({ wokenRead with turns := [.engine, .producer] }.turns = .engine :: .producer :: [] ∧
      wokenRead.engine = .waiting (.read16 16) (.filling 1) ∧ wokenRead.wake = true) ∧
    (BlockInv { busyRead with sink := [], turns := [.engine, .producer] } ∧
      busyRead.engine = .busy (.read16 16) (.filling 1) ∧ busyRead.cfg.mode = .buffered) :=
  ⟨by decide, ⟨by decide, by decide, by decide⟩, rfl, rfl⟩

theorem test_witness_EngineHasNoStepExactlyWhenBlocked :
    BlockInv wokenRead ∧ wokenRead.engine ≠ .idle ∧ ¬ EngineBlocked wokenRead ∧
      EngineBlocked { wokenRead with wake := false } :=
  ⟨test_inv_wokenRead, by decide, (by rintro ⟨_, _, _, h⟩; cases h), ⟨_, _, rfl, rfl⟩⟩

/-- P4 before step 11, and Q9 at its block: a skip and a byte read, each woken. -/
def wokenSkip : State := { buffered [0x11, 0x22, 0x33] true with engine := .waiting (.skip 20) (.skipping 20) }
def wokenBytes : State := { buffered [0x09] true with engine := .waiting (.readBytes 4) (.passing [0x02, 0x03] 2) }

theorem test_witness_WokenCommandCompletes :
    (BlockInv wokenRead ∧ wokenRead.engine = .waiting (.read16 16) (.filling 1) ∧ wokenRead.wake = true ∧
      wokenRead.turns = [] ∧ count (.read16 16) ≤ wokenRead.sinkBits) ∧
    (BlockInv wokenSkip ∧ wokenSkip.engine = .waiting (.skip 20) (.skipping 20) ∧ wokenSkip.wake = true ∧
      wokenSkip.turns = [] ∧ 20 ≤ 8 * wokenSkip.sink.length) ∧
    (BlockInv wokenBytes ∧ wokenBytes.engine = .waiting (.readBytes 4) (.passing [0x02, 0x03] 2) ∧
      wokenBytes.wake = true ∧ wokenBytes.turns = [] ∧ wokenBytes.sink ≠ []) :=
  ⟨⟨test_inv_wokenRead, by decide⟩, ⟨⟨by decide, by decide, by decide⟩, by decide⟩, ⟨by decide, by decide, by decide⟩,
    by decide⟩

theorem test_witness_FillPacksBelowTheValidBits :
    afterRead1.acc.Wf ∧ (Acc.mk 0xA000000000000000 5).Wf ∧ 5 + 8 * [0x3C, 0xFF].length ≤ 64 := by decide

theorem test_witness_SourceAnswersAreTheContractsAnswers :
    (Source.answer { stream := [0x42], choices := [⟨1, true⟩], habit := .tryAgain, ended := false } 8 =
      ([0x42], .endOfData, { stream := [], choices := [], habit := .tryAgain, ended := false })) ∧
    (Source.answer { stream := [0x42], choices := [⟨0, true⟩], habit := .greedy, ended := false } 8 =
      ([], .endOfData, { stream := [0x42], choices := [], habit := .greedy, ended := true })) ∧
    ([0x42] : List Byte).length ≤ 1 ∧
    (({ stream := [], choices := [], habit := .greedy, ended := true } : Source).ended = true ↔
      ([] : List Byte) = [] ∧ SrcStatus.endOfData = .endOfData) := by decide

/-- A request in flight in `DIRECT`, and the reset input's turn. -/
def resetInFlight : State :=
  { direct dataS with engine := .busy (.peek8 8) (.filling 0), turns := [.reset, .engine] }

theorem test_witness_ResetInputResetsTheBlock :
    (resetInFlight.turns = .reset :: [.engine] ∧ resetInFlight.cfg.mode = .direct ∧
      resetInFlight.engine = .busy (.peek8 8) (.filling 0)) ∧
    ({ resetInFlight with engine := .idle }.turns = .reset :: [.engine] ∧
      ∀ cmd p, { resetInFlight with engine := .idle }.engine ≠ .busy cmd p) ∧
    ({ wokenRead with turns := [.reset] }.turns = .reset :: [] ∧ wokenRead.cfg.mode = .buffered) :=
  ⟨by decide, ⟨rfl, by intro _ _ h; cases h⟩, by decide⟩

theorem test_witness_StepKeepsTheInvariant : BlockInv wokenRead ∧ ∃ t, step wokenRead = .next t := ⟨test_inv_wokenRead, _, rfl⟩

theorem test_witness_StepKeepsNoLostWakeup :
    NoLostWakeup { wokenRead with wake := false, producer := .posting } ∧
      ∃ t, step { wokenRead with wake := false, producer := .posting } = .next t :=
  ⟨fun _ _ _ _ => .inr rfl, _, rfl⟩

theorem test_witness_StepKeepsTheConfigurationAndItsBound :
    SinkBounded (bounded [0xAB, 0xCD]) ∧ ∃ t, step (bounded [0xAB, 0xCD]) = .next t :=
  ⟨by intro c h; cases h; decide, _, rfl⟩

theorem test_witness_StepNeverFaults : BlockInv busyRead := test_inv_busyRead

theorem test_witness_EveryCommandIsAnsweredOnce : nextTurn bothPorts ≠ .reset ∧ ∃ t, step bothPorts = .next t :=
  ⟨by decide, _, rfl⟩

theorem test_witness_InsufficientDataIsNeverSurfaced :
    ∃ t, step wokenRead = .next t ∧ t.responses = wokenRead.responses ++ [⟨.ok, 0xABCD, []⟩] := ⟨_, rfl, by decide⟩

theorem test_witness_StatusesOnTheResponsePort :
    BlockInv { afterRead1 with commands := [0x080000000000000021] } ∧
      (∃ t, step { afterRead1 with commands := [0x080000000000000021] } = .next t ∧
        t.responses = afterRead1.responses ++ [⟨.widthOverflow, 0, []⟩]) ∧
      wokenRead.cfg.mode = .buffered := ⟨⟨by decide, by decide, by decide⟩, ⟨_, rfl, by decide⟩, rfl⟩

theorem test_witness_CursorNeverDecreases :
    BlockInv wokenRead ∧ nextTurn wokenRead ≠ .reset ∧ ∃ t, step wokenRead = .next t :=
  ⟨test_inv_wokenRead, by decide, _, rfl⟩

theorem test_witness_SinkIsAQueue :
    (wokenRead.cfg.mode = .buffered ∧ nextTurn wokenRead = .engine ∧ ∃ t, step wokenRead = .next t) ∧
    (nextTurn { bothPorts with turns := [.producer] } = .producer ∧
      ∃ t, step { bothPorts with turns := [.producer] } = .next t) := ⟨⟨rfl, by decide, _, rfl⟩, by decide, _, rfl⟩

theorem test_witness_SourceBytesAreTakenInOrder :
    BlockInv { afterRead1 with commands := [0x100000000000000046] } ∧
      nextTurn { afterRead1 with commands := [0x100000000000000046] } = .engine ∧
      ∃ t, step { afterRead1 with commands := [0x100000000000000046] } = .next t :=
  ⟨⟨by decide, by decide, by decide⟩, by decide, _, rfl⟩

theorem test_witness_ConsumerCommandFrame :
    (Instr.readBytes 12).port = .command ∧ (∃ t, exec (.readBytes 12) afterRead1 = .next t) ∧
      ∃ t, exec (.readBytes 2) (tookByte 0xAB [0xCD] true) = .next t := ⟨rfl, ⟨_, rfl⟩, ⟨_, rfl⟩⟩

end Sys2Proof.Tests
end

section
/-! The block's invariant through every step (spec/10_state.md R22, R23, R37, R38), and the source's bytes through the
engine's turn in `DIRECT` (R16, R34, R43). -/

namespace Sys2Proof.Machine

/-! ### The invariant through a step -/

theorem blockInv_popTurn {s : State} (h : BlockInv s) : BlockInv (popTurn s) :=
  blockInv_congr h rfl rfl rfl rfl

/-- The reset input establishes the invariant from any state: the accumulator is empty, nothing has been taken, and the
engine is idle (R35, R140). -/
theorem blockInv_resetInput (s : State) : BlockInv (resetInput s) :=
  ⟨by simp [Acc.Wf], Acc.holds_of_empty rfl _, rfl⟩

/-- A command accepted at the engine's turn starts in a state that meets the invariant. -/
theorem blockInv_accepted {i : Instr} {s : State} (hp : i.port = .command) (h : BlockInv s) (rest : List PortWord) :
    BlockInv (startOf i { popTurn s with commands := rest }) :=
  blockInv_startOf hp (blockInv_congr h rfl rfl rfl rfl)

/-- Settles O50, by the cases of a step: the engine's turn is a local start or an atomic step, followed by a run, and each
keeps the invariant; the producer's turn touches nothing the invariant speaks of; and a reset establishes it. -/
theorem stepKeepsTheInvariant : Obligations.StepKeepsTheInvariant := by
  intro s t h hs
  cases step_move hs with
  | noCommand => exact blockInv_popTurn h
  | accepts w rest i _ _ _ _ _ hp hr => exact blockInv_runOn (blockInv_accepted hp h rest) hr
  | resumes u _ _ _ hu hr => exact blockInv_runOn (blockInv_engineStep (blockInv_popTurn h) hu) hr
  | posts => exact blockInv_congr h rfl rfl rfl rfl
  | noWrite => exact blockInv_popTurn h
  | writes => exact blockInv_congr h rfl rfl rfl rfl
  | appends => exact blockInv_congr h rfl rfl rfl rfl
  | resets => exact blockInv_resetInput _

/-! ### The engine's turn in DIRECT -/

/-- R27: the engine waits in `BUFFERED` only. -/
theorem BlockInv.not_waiting_of_direct {s : State} (h : BlockInv s) (hm : s.cfg.mode = .direct) (cmd : Instr)
    (p : Progress) : s.engine ≠ .waiting cmd p := by
  intro he
  have hw := h.engine
  simp [EngineWf, he, hm] at hw

theorem LocalStep.wake_eq {cmd : Instr} {s t : State} (h : LocalStep cmd s t) : t.wake = s.wake := by
  cases h <;> rfl

/-- R34: an atomic step leaves `wake` alone unless the engine waits, since only a waiting engine takes a token. -/
theorem engineStep_wake_of_not_waiting {s t : State} (he : ∀ cmd p, s.engine ≠ .waiting cmd p)
    (hs : engineStep s = .next t) : t.wake = s.wake := by
  cases engineStep_move hs with
  | rests => rfl
  | takes cmd p hw => exact absurd hw (he cmd p)
  | asks cmd p => exact (deliver_local cmd p _ _ _).wake_eq
  | blocks => rfl
  | pulls cmd p => exact (deliver_local cmd p _ _ _).wake_eq

/-- A run in `DIRECT` from `u`, which the engine reached from `s` without touching `wake`: seen from `s`, the bytes taken
came from the source, in order and none lost, and neither sink nor wake flag changed. -/
theorem runOn_direct_from {s u t : State} (hm : s.cfg.mode = .direct) (hf : EngineFrame s u) (hw : u.wake = s.wake)
    (hu : BlockInv u) (hr : runOn u = .next t) :
    t.taken ++ t.source.stream = s.taken ++ s.source.stream ∧ t.sink = s.sink ∧ t.wake = s.wake := by
  have hmu : u.cfg.mode = .direct := by rw [hf.cfg, hm]
  obtain ⟨htaken, hsink⟩ := (hf.trans (runOn_frame hr)).direct hm
  exact ⟨htaken, hsink, (runOn_direct hmu (hu.not_waiting_of_direct hmu) hr).1.trans hw⟩

/-- Settles O59, by the cases of the engine's turn: nothing happens, or a local start or an atomic step leads to a state
that meets the invariant, where the engine is not waiting, and the run from there takes bytes from the source only. -/
theorem sourceBytesAreTakenInOrder : Obligations.SourceBytesAreTakenInOrder := by
  intro s t h hm hturn hs
  have hpop := blockInv_popTurn h
  cases step_move hs with
  | noCommand => exact ⟨rfl, rfl, rfl⟩
  | accepts w rest i _ _ _ _ _ hp hr =>
    have hl := startOf_local i { popTurn s with commands := rest } hp
    exact runOn_direct_from (s := { popTurn s with commands := rest }) hm hl.engineFrame hl.wake_eq
      (blockInv_accepted hp h rest) hr
  | resumes u _ _ _ hu hr =>
    exact runOn_direct_from (s := popTurn s) hm (engineStep_frame hu)
      (engineStep_wake_of_not_waiting (hpop.not_waiting_of_direct hm) hu) (blockInv_engineStep hpop hu) hr
  | posts hn => cases hturn.symm.trans hn
  | noWrite hn => cases hturn.symm.trans hn
  | writes _ _ hn => cases hturn.symm.trans hn
  | appends _ _ hn => cases hturn.symm.trans hn
  | resets hn => cases hturn.symm.trans hn

end Sys2Proof.Machine
end

section
/-! The state of the block (spec/10_state.md): its values at reset, what a step and a command leave unchanged, the sink as
a queue, the cursor, and the value that a width-typed command delivers. -/

namespace Sys2Proof.Machine

/-! ### Reset -/

/-- Settles O47, by evaluating the reset state. -/
theorem resetValues : Obligations.ResetValues := ⟨rfl, rfl, rfl, rfl⟩

/-- Settles O49: the accumulator is empty, nothing has been taken, the engine is idle and the sink empty, whatever the
configuration and the source. -/
theorem invariantHoldsAtReset : Obligations.InvariantHoldsAtReset := by
  intro cfg src
  have hinv : BlockInv (State.fresh cfg src) := ⟨by simp [Acc.Wf, State.fresh], Acc.holds_of_empty rfl _, rfl⟩
  have hwake : NoLostWakeup (State.fresh cfg src) := by
    intro cmd p he
    cases he
  exact ⟨hinv, hwake, fun _ _ => Nat.zero_le _⟩

/-! ### The engine's turn -/

/-- A running or blocked engine's turn is its next atomic step and the run from there (R27, R55). -/
theorem engineTurn_of_not_idle {s : State} (h : s.engine ≠ .idle) :
    engineTurn s =
      match engineStep s with
      | .next t => runOn t
      | .fault r => .fault r
      | .refused r => .refused r := by
  unfold engineTurn
  split
  · contradiction
  · rfl
  · rfl

/-- Settles O8: the step is the engine's turn on the state with the turn used up. -/
theorem stepResumesTheCommandInProgress : Obligations.StepResumesTheCommandInProgress := by
  intro s hn he
  rw [step, hn]
  exact (engineTurn_of_not_idle (s := popTurn s) he).trans rfl

/-- The frame of the engine's turn (R34): but for the turn used up and the command accepted, it is an engine's. -/
theorem step_engineFrame {s t : State} (hn : nextTurn s = .engine) (h : step s = .next t) :
    EngineFrame { popTurn s with commands := t.commands } t := by
  cases step_move h with
  | noCommand => exact .refl _
  | accepts w rest i _ _ _ _ _ hp hr =>
    have hf := (startOf_local i { popTurn s with commands := rest } hp).engineFrame.trans (runOn_frame hr)
    rw [hf.commands]
    exact hf
  | resumes u _ _ _ hu hr =>
    have hf := (engineStep_frame hu).trans (runOn_frame hr)
    rw [hf.commands]
    exact hf
  | posts hp | noWrite hp | writes _ _ hp | appends _ _ hp | resets hp => cases hn.symm.trans hp

/-! ### The configuration and the sink's bound -/

/-- A `WRITE` fits when its data keep the sink within a finite capacity (R62). -/
theorem sinkFits_iff (data : List Byte) (s : State) :
    sinkFits data s = true ↔
      ∀ capacity, s.cfg.sinkCapacity = some capacity → s.sink.length + data.length ≤ capacity := by
  cases h : s.cfg.sinkCapacity <;> simp [sinkFits, h]

/-- R62: what fits can be appended. -/
theorem sinkBounded_append {s t : State} {data : List Byte} (hf : sinkFits data s = true) (hc : t.cfg = s.cfg)
    (ht : t.sink = s.sink ++ data) : SinkBounded t := by
  intro capacity h
  rw [hc] at h
  rw [ht, List.length_append]
  exact (sinkFits_iff data s).mp hf capacity h

/-- R24: the engine never lengthens the sink. In `DIRECT` it leaves it alone, and in `BUFFERED` what it takes is a part of
what the sink held. -/
theorem EngineFrame.sink_length_le {s t : State} (h : EngineFrame s t) : t.sink.length ≤ s.sink.length := by
  cases hm : s.cfg.mode with
  | direct => rw [(h.direct hm).2]
  | buffered =>
    obtain ⟨more, hmore⟩ := h.taken
    have hlen := congrArg List.length (h.buffered hm).1
    simp only [hmore, List.length_append] at hlen
    omega

theorem EngineFrame.sinkBounded {s t : State} (h : EngineFrame s t) (hs : SinkBounded s) : SinkBounded t := by
  intro capacity hc
  rw [h.cfg] at hc
  exact h.sink_length_le.trans (hs capacity hc)

/-- Settles O52: the engine never lengthens the sink, a `WRITE` is accepted only if it fits, and a reset empties it. -/
theorem stepKeepsTheConfigurationAndItsBound : Obligations.StepKeepsTheConfigurationAndItsBound := by
  intro s t h
  by_cases hn : nextTurn s = .engine
  · have hf := step_engineFrame hn h
    exact ⟨hf.cfg, hf.sinkBounded⟩
  · cases step_move h with
    | noCommand he | accepts _ _ _ _ he | resumes _ _ he => exact absurd he hn
    | posts | noWrite => exact ⟨rfl, id⟩
    | writes _ _ _ _ _ _ hf | appends _ _ _ _ _ _ hf => exact ⟨rfl, fun _ => sinkBounded_append hf rfl rfl⟩
    | resets => exact ⟨rfl, fun _ _ _ => Nat.zero_le _⟩

/-! ### The sink as a queue -/

/-- Settles O58: the engine's turn has the engine's frame, and the producer's turn appends the data of the `WRITE` it
starts. -/
theorem sinkIsAQueue : Obligations.SinkIsAQueue := by
  intro s t hm h
  refine ⟨fun hn => ((step_engineFrame hn h).buffered hm).1, fun hn => ?_⟩
  cases step_move h with
  | noCommand he | accepts _ _ _ _ he | resumes _ _ he | resets he => cases hn.symm.trans he
  | posts _ hp => exact ⟨rfl, by simp [hp]⟩
  | noWrite _ hp hw => exact ⟨rfl, by simp [hp, hw]⟩
  | writes _ _ _ hp hw | appends _ _ _ hp hw => exact ⟨rfl, by simp [hp, hw]⟩

/-! ### The frame of a command -/

/-- A command's local computation never ends waiting: only a failed pull does that (R112). -/
theorem LocalStep.not_waiting {cmd : Instr} {s t : State} (h : LocalStep cmd s t) (c : Instr) (p : Progress) :
    t.engine ≠ .waiting c p := by
  cases h <;> simp

/-- R34: in `DIRECT` no command touches the wake flag. -/
theorem exec_wake_of_direct {i : Instr} {s t : State} (hp : i.port = .command) (hm : s.cfg.mode = .direct)
    (h : exec i s = .next t) : t.wake = s.wake := by
  have hl := startOf_local i s hp
  have hstart : (startOf i s).cfg.mode = .direct := by rw [hl.engineFrame.cfg, hm]
  exact (runOn_direct hstart hl.not_waiting (exec_next hp h).2).1.trans hl.wake_eq

/-- Settles O60, by the engine's frame. -/
theorem consumerCommandFrame : Obligations.ConsumerCommandFrame := by
  intro i s t hp h
  have hf := exec_frame hp h
  exact ⟨hf.cfg, hf.producer, hf.commands, hf.writes, hf.turns,
    fun hm => ⟨(hf.direct hm).2, exec_wake_of_direct hp hm h⟩, fun hm => (hf.buffered hm).2⟩

/-! ### The cursor never decreases -/

theorem LocalStep.taken_eq {cmd : Instr} {s t : State} (h : LocalStep cmd s t) : t.taken = s.taken := by
  cases h <;> rfl

/-- The cursor (R37) does not decrease when no more bits come to be held than were taken. -/
theorem cursor_le_of_remaining_le {s t : State} {bytes : List Byte} (ht : t.taken = s.taken ++ bytes)
    (hr : t.acc.remaining ≤ s.acc.remaining + 8 * bytes.length) : s.cursor ≤ t.cursor := by
  simp only [State.cursor, ht, List.length_append]
  omega

theorem finishWidth_remaining_le (cmd : Instr) (s : State) :
    (finishWidth cmd s).acc.remaining ≤ s.acc.remaining := by
  cases h : consumes cmd with
  | true => simp [finishWidth_read h]
  | false => simp [finishWidth_peek h]

theorem peekLoop_remaining_le (cmd : Instr) (got : Nat) (s : State) :
    (peekLoop cmd got s).acc.remaining ≤ s.acc.remaining := by
  unfold peekLoop
  split
  · exact finishWidth_remaining_le cmd s
  · exact Nat.le_refl _

theorem skipLoop_remaining_le (cmd : Instr) (owed : Nat) (s : State) :
    (skipLoop cmd owed s).acc.remaining ≤ s.acc.remaining := by
  simp only [skipLoop]
  split <;> exact Nat.sub_le _ _

theorem widthStart_remaining_le (cmd : Instr) (w : Nat) (s : State) :
    (widthStart cmd w s).acc.remaining ≤ s.acc.remaining := by
  unfold widthStart
  split
  · exact Nat.le_refl _
  · split
    · exact Nat.le_refl _
    · exact peekLoop_remaining_le cmd 0 s

theorem readBytesStart_remaining_le (n : Word) (s : State) :
    (readBytesStart n s).acc.remaining ≤ s.acc.remaining := by
  have hdrain (d : Nat) : (s.acc.align.drain d).2.remaining ≤ s.acc.remaining := by
    rw [Acc.drain_eq]
    exact (Nat.sub_le _ _).trans (Nat.sub_le _ _)
  simp only [readBytesStart]
  split <;> exact hdrain _

/-- A command's local start only gives up held bits (R86, R88, R105, R107). -/
theorem startOf_remaining_le (i : Instr) (s : State) : (startOf i s).acc.remaining ≤ s.acc.remaining := by
  cases i with
  | skip n => exact skipLoop_remaining_le _ _ s
  | align => exact Nat.sub_le _ _
  | isAligned | len | write => exact Nat.le_refl _
  | readBytes n => exact readBytesStart_remaining_le n s
  | _ => exact widthStart_remaining_le _ _ s

/-- A command that goes on with an answer holds no more bits than before it, but for those that came (R80). -/
theorem deliver_remaining_le (cmd : Instr) (p : Progress) (bytes : List Byte) (st : SrcStatus) (s : State) :
    (deliver cmd p bytes st s).acc.remaining ≤ s.acc.remaining + 8 * bytes.length := by
  have hfill {next onEnd : State → State} {b : State} (hb : b.acc = s.acc)
      (hnext : ∀ u, (next u).acc.remaining ≤ u.acc.remaining) (hend : (onEnd b).acc = b.acc) :
      (fillWith bytes st next onEnd b).acc.remaining ≤ s.acc.remaining + 8 * bytes.length := by
    unfold fillWith
    split
    · cases st
      · simp [hb]
      · simp [hend, hb]
    · simpa [hb] using hnext { b with acc := b.acc.absorb bytes }
  cases p with
  | filling got => exact hfill rfl (peekLoop_remaining_le cmd _) rfl
  | skipping owed => exact hfill rfl (skipLoop_remaining_le cmd owed) rfl
  | passing out want => exact Nat.le_add_right _ _

/-- Going on with an answer, the bytes of which have been taken, does not move the cursor back. -/
theorem deliver_cursor_le {cmd : Instr} {p : Progress} {bytes : List Byte} {st : SrcStatus} {s v : State}
    (ha : v.acc = s.acc) (ht : v.taken = s.taken ++ bytes) : s.cursor ≤ (deliver cmd p bytes st v).cursor :=
  cursor_le_of_remaining_le ((deliver_local cmd p bytes st v).taken_eq.trans ht)
    (ha ▸ deliver_remaining_le cmd p bytes st v)

/-- R37: no atomic step of the engine moves the cursor back. -/
theorem engineStep_cursor_le {s t : State} (h : engineStep s = .next t) : s.cursor ≤ t.cursor := by
  cases engineStep_move h with
  | rests | takes | blocks => exact Nat.le_refl _
  | asks | pulls => exact deliver_cursor_le rfl (taken_record _ _ _ _)

theorem runOn_cursor_le {s t : State} (h : runOn s = .next t) : s.cursor ≤ t.cursor :=
  runOn_rel (R := fun a b => a.cursor ≤ b.cursor) (fun _ => Nat.le_refl _) (fun _ _ _ => Nat.le_trans)
    (fun _ _ => engineStep_cursor_le) h

theorem startOf_cursor_le {i : Instr} (hp : i.port = .command) (s : State) : s.cursor ≤ (startOf i s).cursor :=
  cursor_le_of_remaining_le (bytes := []) (by simpa using (startOf_local i s hp).taken_eq)
    (startOf_remaining_le i s)

/-- Settles O57, by the cases of a step: only the engine moves the cursor, and each of its moves gives up held bits or holds
the bytes it takes. The invariant is not needed. -/
theorem cursorNeverDecreases : Obligations.CursorNeverDecreases := by
  intro s t _ hn h
  cases step_move h with
  | noCommand | posts | noWrite | writes | appends => exact ⟨Nat.le_refl _, [], (List.append_nil _).symm⟩
  | accepts w rest i _ he _ _ _ hp hr =>
    have hstart := startOf_cursor_le hp { popTurn s with commands := rest }
    exact ⟨hstart.trans (runOn_cursor_le hr), (step_engineFrame he h).taken⟩
  | resumes u _ he _ hu hr =>
    exact ⟨(engineStep_cursor_le hu).trans (runOn_cursor_le hr), (step_engineFrame he h).taken⟩
  | resets hr => exact absurd hr hn

/-! ### Fill's packing -/

/-- Settles O45, by fill's packing bit by bit from the top. -/
theorem fillPacksBelowTheValidBits : Obligations.FillPacksBelowTheValidBits := by
  intro a bytes ha hfit
  refine ⟨Acc.absorb_wf bytes ha hfit, Acc.absorb_remaining a bytes, fun i hi => ?_, fun j hj => ?_⟩
  · rw [Acc.absorb_getMsbD bytes hfit (by omega), if_pos hi]
  · rw [Acc.absorb_getMsbD bytes hfit (by omega), if_neg (by omega), if_pos (by omega), Nat.add_sub_cancel_left]

/-! ### The value of a width-typed command -/

/-- What the response of a width-typed command that started at the cursor `c` says of the state it leaves (R46, R72,
R88). -/
structure WidthAnswer (cmd : Instr) (c : Nat) (t : State) (r : Response) : Prop where
  data : r.data = []
  value : r.status = .ok → r.value.toNat = streamValue t.taken c (count cmd)
  cursor : t.cursor = c + if r.status = .ok ∧ consumes cmd = true then count cmd else 0

/-- Where a width-typed command that started in `s` stands in `t`: it still fills and has moved no cursor, or it has
answered. -/
inductive WidthRun (cmd : Instr) (s t : State) : Prop where
  | filling (got : Nat) (he : t.engine = .busy cmd (.filling got) ∨ t.engine = .waiting cmd (.filling got))
      (hr : t.responses = s.responses) (hc : t.cursor = s.cursor)
  | answered (r : Response) (he : t.engine = .idle) (hr : t.responses = s.responses ++ [r])
      (ha : WidthAnswer cmd s.cursor t r)

/-- An error response leaves the cursor (R146). -/
theorem widthRun_raise {cmd : Instr} {s u : State} {e : Status} (he : e ≠ .ok) (hr : u.responses = s.responses)
    (hc : u.cursor = s.cursor) : WidthRun cmd s (raise e u) :=
  .answered ⟨e, 0, []⟩ rfl (by simp [hr]) ⟨rfl, fun h => absurd h he, by rw [if_neg (fun h => he h.1)]; exact hc⟩

/-- The end of a width-typed command (R84, R88): its value is the stream's at the cursor. -/
theorem widthRun_finishWidth {cmd : Instr} {s u : State} (hh : u.acc.Holds u.taken) (h64 : count cmd ≤ 64)
    (hheld : count cmd ≤ u.acc.remaining) (hr : u.responses = s.responses) (hc : u.cursor = s.cursor) :
    WidthRun cmd s (finishWidth cmd u) := by
  have hvalue : (u.acc.top (count cmd)).toNat = streamValue u.taken s.cursor (count cmd) := by
    rw [← hc]
    exact Acc.top_streamValue hh h64 hheld
  have hresp : (finishWidth cmd u).responses = s.responses ++ [⟨.ok, u.acc.top (count cmd), []⟩] := by
    rw [← hr]
    unfold finishWidth
    split <;> rfl
  have htaken : (finishWidth cmd u).taken = u.taken := (finishWidth_local cmd u).taken_eq
  have hbound : u.acc.remaining ≤ 8 * u.taken.length := hh.1
  refine .answered _ (finishWidth_idle cmd u) hresp ⟨rfl, fun _ => by rw [htaken]; exact hvalue, ?_⟩
  rw [← hc]
  cases h : consumes cmd with
  | true =>
    simp only [finishWidth_read h, State.cursor, taken_finish, finish_acc, Acc.drop_remaining, and_self, if_true]
    change 8 * u.taken.length - _ = _
    omega
  | false =>
    simp [finishWidth_peek h, State.cursor]

/-- `Peek`'s loop (R83) up to its next fill or its answer. -/
theorem widthRun_peekLoop {cmd : Instr} {got : Nat} {s u : State} (hh : u.acc.Holds u.taken) (h64 : count cmd ≤ 64)
    (hr : u.responses = s.responses) (hc : u.cursor = s.cursor) : WidthRun cmd s (peekLoop cmd got u) := by
  by_cases hheld : count cmd ≤ u.acc.remaining
  · rw [peekLoop_held hheld]
    exact widthRun_finishWidth hh h64 hheld hr hc
  · rw [peekLoop_short (by omega)]
    exact .filling got (.inl rfl) hr hc

/-- The start of a width-typed command (R93). -/
theorem widthRun_widthStart {cmd : Instr} {w : Nat} {s : State} (hh : s.acc.Holds s.taken) (hw : w ≤ 64) :
    WidthRun cmd s (widthStart cmd w s) := by
  unfold widthStart
  split
  · exact widthRun_raise (by simp) rfl rfl
  · rename_i hov
    have hn := (widthOverflow_false_iff w (count cmd)).mp (by simpa using hov)
    split
    · exact widthRun_raise (by simp) rfl rfl
    · exact widthRun_peekLoop hh (hn.2.trans hw) rfl rfl

/-- A width-typed command that fills wants at most 64 bits and more than are held (R83, R93). -/
theorem progressWf_filling {a : Acc} {cmd : Instr} {got : Nat} (h : ProgressWf a cmd (.filling got) = true) :
    count cmd ≤ 64 ∧ a.remaining < count cmd := by
  simp only [ProgressWf] at h
  split at h
  · rename_i w hw
    simp only [Bool.and_eq_true, Bool.not_eq_true', decide_eq_true_eq, widthOverflow_false_iff] at h
    obtain ⟨⟨⟨_, hn⟩, _⟩, hheld⟩ := h
    exact ⟨hn.trans (resultWidth_le hw), hheld⟩
  · cases h

/-- A running command's progress fits the accumulator (R27). -/
theorem BlockInv.progressWf_of_busy {s : State} (h : BlockInv s) {cmd : Instr} {p : Progress}
    (he : s.engine = .busy cmd p) : ProgressWf s.acc cmd p = true := by
  have hw := h.engine
  rwa [EngineWf, he] at hw

/-- The answer to a fill (R80, R83), `u` being the state that asked and `v` the one with the answer taken: absorbing what
came leaves the cursor. -/
theorem widthRun_deliver {cmd : Instr} {got : Nat} {bytes : List Byte} {st : SrcStatus} {s u v : State}
    (hu : BlockInv u) (he : u.engine = .busy cmd (.filling got)) (hl : bytes.length ≤ u.acc.cap)
    (hv : v.acc = u.acc) (ht : v.taken = u.taken ++ bytes) (hr : v.responses = s.responses)
    (hc : u.cursor = s.cursor) : WidthRun cmd s (deliver cmd (.filling got) bytes st v) := by
  obtain ⟨h64, hshort⟩ := progressWf_filling (hu.progressWf_of_busy he)
  have hfit : u.acc.remaining + 8 * bytes.length ≤ 64 := by
    have := Acc.cap_fits hu.accumulator.1
    omega
  by_cases hend : bytes = [] ∧ st = .endOfData
  · obtain ⟨rfl, rfl⟩ := hend
    have hcv : v.cursor = s.cursor := by rw [← hc, State.cursor, State.cursor, hv, ht, List.append_nil]
    refine widthRun_raise (u := { v with engine := .busy cmd (.filling got) }) ?_ hr hcv
    rcases endStatus_good v.cfg cmd got with h | h <;> simp [h]
  · rw [deliver_filling (by rw [hv]; exact hshort) hend]
    refine widthRun_peekLoop ?_ h64 hr ?_
    · have := Acc.absorb_holds hu.stream bytes hfit
      rwa [← hv, ← ht] at this
    · rw [← hc]
      change 8 * v.taken.length - (v.acc.absorb bytes).remaining = 8 * u.taken.length - u.acc.remaining
      rw [ht, hv, Acc.absorb_remaining, List.length_append]
      omega

/-- An engine that is not idle has one command in progress (R27). -/
theorem command_unique {e : Engine} {c d : Instr} {p q : Progress} (hc : e = .busy c p ∨ e = .waiting c p)
    (hd : e = .busy d q ∨ e = .waiting d q) : d = c ∧ q = p := by
  rcases hc with rfl | rfl <;> simpa [eq_comm] using hd

/-- Every atomic step keeps a width-typed command where `WidthRun` says. -/
theorem widthRun_engineStep {cmd : Instr} {s u t : State} (hu : BlockInv u) (h : WidthRun cmd s u)
    (hs : engineStep u = .next t) : WidthRun cmd s t := by
  cases h with
  | answered r he hr ha =>
    rw [(engineStep_good hs).1 he]
    exact .answered r he hr ha
  | filling got he hr hc =>
    cases engineStep_move hs with
    | rests => exact .filling got he hr hc
    | takes c p hw =>
      obtain ⟨rfl, rfl⟩ := command_unique he (.inr hw)
      exact .filling got (.inl rfl) hr hc
    | blocks c p hb =>
      obtain ⟨rfl, rfl⟩ := command_unique he (.inl hb)
      exact .filling got (.inr rfl) hr hc
    | asks c p hb =>
      obtain ⟨rfl, rfl⟩ := command_unique he (.inl hb)
      exact widthRun_deliver hu hb (Source.answer_length_le _ _) rfl (taken_record _ _ _ _) hr hc
    | pulls c p hb =>
      obtain ⟨rfl, rfl⟩ := command_unique he (.inl hb)
      exact widthRun_deliver hu hb (List.length_take_le _ _) rfl (taken_record _ _ _ _) hr hc

/-- Where a width-typed command stands after its meaning has run. -/
theorem widthRun_exec {n : Word} {w : Nat} {cmd : Instr} (hf : (w, cmd) ∈ widthForms n) {s t : State}
    (hs : BlockInv s) (h : exec cmd s = .next t) : WidthRun cmd s t := by
  obtain ⟨hp, -, -, -, hw, -, -⟩ := widthForms_spec hf
  have hrun := (exec_next hp h).2
  have hinv := blockInv_startOf hp hs
  rw [startOf_width hf] at hrun hinv
  exact (engineRun_induction (P := fun u => BlockInv u ∧ WidthRun cmd s u)
    (fun _ _ hu hstep => ⟨blockInv_engineStep hu.1 hstep, widthRun_engineStep hu.1 hu.2 hstep⟩) _
    ⟨hinv, widthRun_widthStart hs.stream hw⟩ hrun).2

/-- Settles O20: a command that has given a response is past its fills, and its answer is the stream's at the cursor. -/
theorem widthCommandsDeliverTheStream : Obligations.WidthCommandsDeliverTheStream := by
  intro s t n w cmd v d hf hs h hresp
  obtain ⟨-, -, -, hcount, -, hread, -⟩ := widthForms_spec hf
  cases widthRun_exec hf hs h with
  | filling got he hr => simp [hr] at hresp
  | answered r he hr ha =>
    obtain rfl : r = ⟨.ok, v, d⟩ := by simpa [hr] using hresp
    rw [← hcount]
    exact ⟨ha.value rfl, ha.data, by simpa [hread] using ha.cursor⟩

end Sys2Proof.Machine
end

section
/-! The source, the sink and the wake flag (spec/20_memory.md): no wakeup is lost, the fill loop on the source's answers,
the two steps of a `WRITE`, the take and the failed pull, and what the ports refuse. -/

namespace Sys2Proof.Machine

/-! ### No lost wakeup -/

/-- An engine that is not waiting has no wakeup to lose. -/
theorem noLostWakeup_of_not_waiting {s : State} (h : ∀ cmd p, s.engine ≠ .waiting cmd p) : NoLostWakeup s :=
  fun cmd p he => absurd he (h cmd p)

/-- R58 through one atomic step of the engine: it comes to wait only on an empty sink, and takes a token only to stop
waiting. -/
theorem noLostWakeup_engineStep {s t : State} (h : NoLostWakeup s) (hs : engineStep s = .next t) : NoLostWakeup t := by
  cases engineStep_move hs with
  | rests => exact h
  | takes => exact noLostWakeup_of_not_waiting (by simp)
  | asks cmd p => exact noLostWakeup_of_not_waiting (deliver_local cmd p _ _ _).not_waiting
  | pulls cmd p => exact noLostWakeup_of_not_waiting (deliver_local cmd p _ _ _).not_waiting
  | blocks _ _ _ _ _ hempty => exact fun _ _ _ hne => absurd hempty hne

theorem noLostWakeup_runOn {s t : State} (h : NoLostWakeup s) (hs : runOn s = .next t) : NoLostWakeup t :=
  engineRun_induction (P := NoLostWakeup) (fun _ _ => noLostWakeup_engineStep) _ h hs

/-- Settles O51, by the cases of a step: the engine's turn is a local start, which never ends waiting, or an atomic step,
and a run from there; the producer's turn leaves a token or owes one whenever it fills the sink; and a reset idles the
engine. -/
theorem stepKeepsNoLostWakeup : Obligations.StepKeepsNoLostWakeup := by
  intro s t h hs
  cases step_move hs with
  | noCommand | noWrite => exact h
  | accepts _ _ i _ _ _ _ _ hp hr =>
    exact noLostWakeup_runOn (noLostWakeup_of_not_waiting (startOf_local i _ hp).not_waiting) hr
  | resumes u _ _ _ hu hr => exact noLostWakeup_runOn (noLostWakeup_engineStep (s := popTurn s) h hu) hr
  | posts | writes => exact fun _ _ _ _ => .inl rfl
  | appends => exact fun _ _ _ _ => .inr rfl
  | resets => exact noLostWakeup_of_not_waiting (by simp)

/-! ### A single atomic step of the engine -/

/-- While another turn is listed after the engine's, the step of a command in progress is one atomic step (R55). -/
theorem step_eq_of_engineStep {s t : State} {next : Turn} {rest : List Turn} (ht : s.turns = .engine :: next :: rest)
    (he : s.engine ≠ .idle) (h : engineStep { s with turns := next :: rest } = .next t) : step s = .next t := by
  have hturn : nextTurn s = .engine := by simp [nextTurn, ht]
  have hlisted : t.turns ≠ [] := by simp [(engineStep_frame h).turns]
  rw [stepResumesTheCommandInProgress s hturn he, ht, List.tail_cons, h]
  exact runOn_listed hlisted

/-- Settles O42: each part is one atomic step of the engine. The invariant rules out a pull of no bytes. -/
theorem takeAndFailedPullKeepProgress : Obligations.TakeAndFailedPullKeepProgress := by
  constructor
  · intro s cmd p next rest ht he hw
    refine step_eq_of_engineStep ht (by simp [he]) ?_
    simp [engineStep, he, hw, wakeTake]
  · intro s cmd p next rest h ht he hm hs
    have hr : request s.acc p ≠ 0 := request_ne_zero h (.inl he)
    refine step_eq_of_engineStep ht (by simp [he]) ?_
    rw [engineStep_busy (s := { s with turns := next :: rest }) he hr]
    have hempty := pullStep_empty (s := { s with turns := next :: rest }) hs cmd p
    simp only [hm, hempty]

/-! ### The fill loop in DIRECT -/

/-- The state in which the source of `DIRECT` has answered a fill as the exchange `e` says, and its bytes are absorbed
(R42, R80). -/
def filled (e : Exchange) (s : State) : State :=
  { s with
    acc := s.acc.absorb e.bytes
    source := (s.source.answer e.max).2.2
    exchanges := s.exchanges ++ [e] }

/-- `Peek`'s loop sets the engine's place in either of its branches, whatever it was. -/
theorem peekLoop_engine_irrel (cmd : Instr) (got : Nat) (e : Engine) (s : State) :
    peekLoop cmd got { s with engine := e } = peekLoop cmd got s := by
  unfold peekLoop
  split
  · unfold finishWidth
    split <;> rfl
  · rfl

/-- The atomic step of a width-typed command in `DIRECT` whose fill is not answered `(0, EndOfData)`: it absorbs what came,
and `Peek`'s loop goes on (R80, R83). -/
theorem directStep_filling {cmd : Instr} {got : Nat} {s : State} {e : Exchange} (hshort : s.acc.remaining < count cmd)
    (hmax : e.max = (64 - s.acc.remaining) / 8) (hbytes : (s.source.answer e.max).1 = e.bytes)
    (hstatus : (s.source.answer e.max).2.1 = e.status) (hne : ¬ (e.bytes = [] ∧ e.status = .endOfData)) :
    directStep cmd (.filling got) s = peekLoop cmd (got + e.bytes.length) (filled e s) := by
  have hreq : request s.acc (.filling got) = e.max := hmax.symm
  simp only [directStep, hreq, hbytes, hstatus]
  rw [deliver_filling (by exact hshort) hne]
  exact peekLoop_engine_irrel cmd _ (.busy cmd (.filling got)) (filled e s)

/-- An uninterrupted width-typed command in `DIRECT` whose fills suffice runs from `Peek`'s loop to its end, one atomic step
for each exchange (R80, R83, R90). -/
theorem engineRun_fillRun {cmd : Instr} (hn : count cmd ≤ 64) {fills : List Exchange} {a : Acc} {src : Source}
    (hheld : count cmd ≤ a.remaining) (spare : Nat) {s : State} (got : Nat) (ht : s.turns = [])
    (hm : s.cfg.mode = .direct) (hal : count cmd ≤ 56 ∨ s.acc.remaining % 8 = 0)
    (h : FillRun (count cmd) s.acc s.source fills a src) :
    engineRun (spare + fills.length) (peekLoop cmd got s) =
      .next (finishWidth cmd { s with acc := a, source := src, exchanges := s.exchanges ++ fills }) := by
  induction fills generalizing s got with
  | nil =>
    obtain ⟨rfl, rfl⟩ := h
    rw [peekLoop_held hheld, List.append_nil]
    exact engineRun_idle (finishWidth_idle cmd s) _
  | cons e rest ih =>
    obtain ⟨hshort, hmax, hbytes, hstatus, hne, hrest⟩ := h
    have hreq : request s.acc (.filling got) ≠ 0 := (Acc.cap_pos hn hal hshort).ne'
    have hal' : count cmd ≤ 56 ∨ (s.acc.absorb e.bytes).remaining % 8 = 0 := by
      rw [Acc.absorb_remaining]
      omega
    have hfill := directStep_filling (s := { s with engine := .busy cmd (.filling got) }) (got := got) hshort hmax hbytes
      hstatus hne
    have hrun := ih (s := filled e s) (got + e.bytes.length) ht hm hal' hrest
    rw [peekLoop_short hshort]
    refine engineRun_busy (fuel := spare + rest.length) rfl ht hreq ?_
    rw [if_pos hm, hfill]
    refine (congrArg _ (peekLoop_engine_irrel cmd _ _ (filled e s))).trans (hrun.trans ?_)
    simp [filled]

/-- A command's local computation leaves the engine's bound as it is: it takes no byte and no choice. -/
theorem LocalStep.engineFuel_eq {cmd : Instr} {s t : State} (h : LocalStep cmd s t) : engineFuel t = engineFuel s := by
  rw [h.frame]
  rfl

/-- An admitted, uninterrupted width-typed command in `DIRECT` whose fills suffice: its whole effect (R80, R83, R90). The
engine's bound covers the loop, since each of its requests uses up a byte or a choice of the source. -/
theorem exec_width_of_fillRun {n : Word} {w : Nat} {cmd : Instr} {s : State} {fills : List Exchange} {a : Acc}
    {src : Source} (hf : (w, cmd) ∈ widthForms n) (hu : Uninterrupted s) (hm : s.cfg.mode = .direct)
    (ha : Admitted s w n) (h : FillRun n.toNat s.acc s.source fills a src) (hheld : n.toNat ≤ a.remaining) :
    exec cmd s =
      .next (finishWidth cmd { s with acc := a, source := src, exchanges := s.exchanges ++ fills }) := by
  obtain ⟨hidle, ht⟩ := hu
  obtain ⟨-, -, -, hcount, hw, -, -⟩ := widthForms_spec hf
  have hn : n.toNat ≤ 64 := ha.2.1.trans hw
  have hal : n.toNat ≤ 56 ∨ s.acc.remaining % 8 = 0 := ha.2.2
  have hfuel : fills.length ≤ engineFuel s := by
    have := h.length_le hn hal hheld
    simp only [engineFuel]
    omega
  rw [exec_width hf hidle, widthStart_admitted hf ha, runOn, (peekLoop_local cmd 0 s).engineFuel_eq,
    ← Nat.sub_add_cancel hfuel]
  rw [← hcount] at hn hal hheld h
  exact engineRun_fillRun hn hheld _ 0 ht hm hal h

/-- A fill answered `(0, OK)` leaves the command where it stands (R43(b), D10). -/
theorem deliver_tryAgain {cmd : Instr} {p : Progress} (hp : (∃ got, p = .filling got) ∨ ∃ owed, p = .skipping owed)
    (s : State) : deliver cmd p [] .ok s = { s with engine := .busy cmd p } := by
  obtain ⟨got, rfl⟩ | ⟨owed, rfl⟩ := hp <;> rfl

/-- A fill of a peek, a read or a skip asks for what fits above the held bits (R80). -/
theorem request_fill {p : Progress} (hp : (∃ got, p = .filling got) ∨ ∃ owed, p = .skipping owed) (a : Acc) :
    request a p = (64 - a.remaining) / 8 := by
  obtain ⟨got, rfl⟩ | ⟨owed, rfl⟩ := hp <;> rfl

/-- Settles O15: the first part is the fill loop's run, ended by a peek; the second is one atomic step. -/
theorem peekFillsFromTheSource : Obligations.PeekFillsFromTheSource := by
  constructor
  · intro s n w cmd fills a src hf hu hm ha h hheld
    have hwf := mem_widthForms_of_peek hf
    obtain ⟨-, -, -, hcount, -, -, hpeek⟩ := widthForms_spec hwf
    rw [exec_width_of_fillRun hwf hu hm ha h hheld, finishWidth_peek (hpeek.mpr hf), Acc.top_eq, hcount]
    simp [finish, respond, hu.1]
  · intro s cmd p src next rest hinv ht he hm hp hans
    have hr : request s.acc p ≠ 0 := request_ne_zero hinv (.inl he)
    refine step_eq_of_engineStep ht (by simp [he]) ?_
    rw [engineStep_busy (s := { s with turns := next :: rest }) he hr]
    simp only [hm, directStep, request_fill hp, hans, deliver_tryAgain hp, record, he]

/-- Settles O16: the fill loop's run, ended by a read. -/
theorem readFillsFromTheSource : Obligations.ReadFillsFromTheSource := by
  intro s n w cmd fills a src hf hu hm ha h hheld
  have hwf := mem_widthForms_of_read hf
  obtain ⟨-, -, -, hcount, -, hread, -⟩ := widthForms_spec hwf
  rw [exec_width_of_fillRun hwf hu hm ha h hheld, finishWidth_read (hread.mpr hf), Acc.top_eq, hcount]
  simp [finish, respond, hu.1]

/-! ### The source's contract -/

/-- R43(c): a source that answers `(0, EndOfData)` has ended. -/
theorem Source.answer_ended_of_endOfData {src : Source} {max : Nat} (hb : (src.answer max).1 = [])
    (hst : (src.answer max).2.1 = .endOfData) : (src.answer max).2.2.ended = true := by
  cases he : src.ended with
  | true => rw [Source.answer_ended he, he]
  | false =>
    cases hc : src.choices with
    | cons c rest =>
      rw [Source.answer_choice he hc] at hb hst ⊢
      cases heod : c.eod with
      | false => simp [heod, srcStatus] at hst
      | true => simpa [heod] using hb
    | nil =>
      cases hh : src.habit with
      | greedy =>
        rw [Source.answer_greedy ⟨he, hc, hh⟩] at hb ⊢
        simpa using hb
      | tryAgain => simp [Source.answer_tryAgain he hc hh] at hst

/-- The source that answers its next request with `bytes` and `st` and is `after` from then on. -/
def Source.before (bytes : List Byte) (st : SrcStatus) (after : Source) : Source :=
  { stream := bytes ++ after.stream
    choices := ⟨bytes.length, decide (st = .endOfData)⟩ :: after.choices
    habit := after.habit
    ended := false }

/-- R43: any answer of at most `max` bytes is given, with any continuation that has ended exactly when the answer is
`(0, EndOfData)`. -/
theorem Source.before_answer {max : Nat} {bytes : List Byte} {st : SrcStatus} {after : Source}
    (hl : bytes.length ≤ max) (he : after.ended = true ↔ bytes = [] ∧ st = .endOfData) :
    (Source.before bytes st after).answer max = (bytes, st, after) := by
  have hended : (decide (st = .endOfData) && bytes.isEmpty) = after.ended := by
    rw [Bool.eq_iff_iff, he]
    simp [and_comm]
  have hstatus : srcStatus (decide (st = .endOfData)) = st := by cases st <;> rfl
  rw [Source.answer_choice rfl rfl]
  simp [Source.before, Nat.min_eq_left hl, hended, hstatus]

/-- Settles O46: soundness by the cases of an answer, completeness by the source that lists the answer as its next
choice. -/
theorem sourceAnswersAreTheContractsAnswers : Obligations.SourceAnswersAreTheContractsAnswers := by
  constructor
  · intro src after max bytes st h
    have hlen := Source.answer_length_le src max
    have hstream := Source.answer_append_stream src max
    have hlast := Source.answer_ended_of_endOfData (src := src) (max := max)
    rw [h] at hlen hstream hlast
    refine ⟨hlen, hstream, hlast, fun he => ?_⟩
    rw [Source.answer_ended he] at h
    cases h
    exact ⟨rfl, rfl, rfl⟩
  · intro max bytes st after hl he
    exact ⟨Source.before bytes st after, rfl, Source.before_answer hl he⟩

/-! ### WRITE and the refusals -/

/-- A `WRITE` on a producer that is ready for it (R62, R115). -/
theorem exec_write_ready {s : State} (hm : s.cfg.mode = .buffered) (hp : s.producer = .idle) (data : List Byte) :
    exec (.write data) s =
      if sinkFits data s then
        if s.turns.isEmpty then .next (wakePost (sinkAppend data s))
        else .next { sinkAppend data s with producer := .posting }
      else .refused .sinkFull := by
  simp [exec, execWrite, hm, hp]

/-- Settles O39: with a turn listed, a `WRITE` that fits stops after its append, and its post is the producer's turn. -/
theorem appendAndPostAreTwoSteps : Obligations.AppendAndPostAreTwoSteps := by
  constructor
  · intro s data hm hp ht hfits
    rw [exec_write_ready hm hp, if_pos ((sinkFits_iff data s).mpr hfits), if_neg (by simpa using ht)]
    rfl
  · intro s hn hp
    have hpost : (popTurn s).producer = .posting := hp
    simp only [step, hn, turnStep, producerTurn, hpost]
    rfl

/-- Settles O41, each refusal by the check that its meaning makes first. -/
theorem refusedTransactions : Obligations.RefusedTransactions := by
  refine ⟨fun s data capacity hm hp hcap hfull => ?_, fun s data hm => ?_, fun s hm => exec_len_direct hm,
    fun s i hp he hwf => ?_, fun s data hm hp => ?_⟩
  · have hfits : ¬ sinkFits data s = true := fun h => by
      have := (sinkFits_iff data s).mp h capacity hcap
      omega
    rw [exec_write_ready hm hp, if_neg hfits]
  · simp [exec, execWrite, hm]
  · rw [exec_command hp hwf, onCommandPort_taken he]
  · simp [exec, execWrite, hm, hp]

end Sys2Proof.Machine
end

section
/-! The ports' encodings (spec/30_encoding.md): decoding inverts encoding, the opcode table's command rows, the reserved
words, the step that takes a transaction from its port, and how many commands a step leaves unanswered. -/

namespace Sys2Proof

/-! ### Decoding inverts encoding -/

/-- A word is its two fields put together. -/
theorem append_eq_iff_fields (op : BitVec 8) (arg : Word) (w : PortWord) :
    op ++ arg = w ↔ opField w = op ∧ argField w = arg := by
  constructor
  · rintro rfl
    exact ⟨opField_append op arg, argField_append op arg⟩
  · rintro ⟨rfl, rfl⟩
    exact opField_append_argField w

theorem noOperand_eq_instr_iff (arg : Word) (i j : Instr) : noOperand arg j = .instr i ↔ arg = 0 ∧ j = i := by
  by_cases h : arg = 0
  · simp [noOperand, h]
  · rw [noOperand, if_neg h]
    exact iff_of_false (fun hr => by cases hr) fun ⟨ha, _⟩ => h ha

theorem noOperand_eq_reject_iff (arg : Word) (i : Instr) : (∃ r, noOperand arg i = .reject r) ↔ arg ≠ 0 := by
  by_cases h : arg = 0
  · simp [noOperand, h]
  · rw [noOperand, if_neg h]
    exact iff_of_true ⟨_, rfl⟩ h

/-- A word with the fields of `i` is `i`'s encoding. -/
theorem encode_word_of_fields {w : PortWord} {i : Instr} (ho : (opField w).toNat = i.opcode.toNat)
    (ha : argField w = i.operand) : (encode i).word = w :=
  (append_eq_iff_fields _ _ _).mpr ⟨BitVec.eq_of_toNat_eq ho, ha⟩

/-- A word of format `C0` that is accepted is the encoding of its row's instruction (R69). -/
theorem encode_of_noOperand {m : Mode} {w : PortWord} {i j : Instr} (h : noOperand (argField w) j = .instr i)
    (ho : (opField w).toNat = j.opcode.toNat) (hj : j.operand = 0) (hwf : j.wellFormed m = true) :
    i.wellFormed m = true ∧ (encode i).word = w := by
  obtain ⟨ha, rfl⟩ := (noOperand_eq_instr_iff _ _ _).mp h
  exact ⟨hwf, encode_word_of_fields ho (ha.trans hj.symm)⟩

/-- The command port decodes a word to an instruction only if it is the encoding of that instruction (R74). -/
theorem encode_of_decodeCommand {m : Mode} {w : PortWord} {i : Instr} (h : decodeCommand m w = .instr i) :
    i.wellFormed m = true ∧ (encode i).word = w := by
  unfold decodeCommand at h
  split at h
  case h_12 ho | h_13 ho => exact encode_of_noOperand h ho rfl rfl
  case h_15 ho =>
    cases m with
    | direct => cases h
    | buffered => exact encode_of_noOperand h ho rfl rfl
  case h_16 => cases h
  all_goals
    cases h
    exact ⟨rfl, encode_word_of_fields ‹_› rfl⟩

/-- The command port decodes the encoding of each of its well-formed instructions (R67, R69, R73). -/
theorem decodeCommand_encode {m : Mode} {i : Instr} (hp : i.port = .command) (hwf : i.wellFormed m = true) :
    decodeCommand m (encode i).word = .instr i := by
  cases i with
  | write data => cases hp
  | len =>
    obtain rfl : m = .buffered := of_decide_eq_true hwf
    rfl
  | align | isAligned => rfl
  | _ => simp [decodeCommand, encode, Instr.opcode, Instr.operand]

/-- R74 at the command port: a word decodes to an instruction exactly when it is the encoding of that instruction, which
belongs to the command port and is well-formed in the mode. -/
theorem decodeCommand_eq_instr_iff {m : Mode} {w : PortWord} {i : Instr} :
    decodeCommand m w = .instr i ↔ i.port = .command ∧ i.wellFormed m = true ∧ (encode i).word = w := by
  constructor
  · exact fun h => ⟨Machine.decodeCommand_port h, encode_of_decodeCommand h⟩
  · rintro ⟨hp, hwf, rfl⟩
    exact decodeCommand_encode hp hwf

/-- No data bytes follow a command (R63). -/
theorem payload_eq_nil_of_command {i : Instr} (hp : i.port = .command) : i.payload = [] := by
  cases i with
  | write data => cases hp
  | _ => rfl

/-- The producer port decodes the encoding of a `WRITE` whose length fits its header (R65). -/
theorem decodeWrite_encode {data : List Byte} (hlen : data.length < 2 ^ 64) :
    decodeWrite .buffered (encode (.write data)) = .instr (.write data) := by
  have hheader : data.length = (BitVec.ofNat 64 data.length).toNat := (Nat.mod_eq_of_lt hlen).symm
  simpa [decodeWrite, encode, Instr.opcode, Instr.operand, Instr.payload] using hheader

/-- A packet that the producer port of `BUFFERED` decodes has the opcode of `WRITE`, and its header counts its bytes
(R65). -/
theorem decodeWrite_fields {p : Packet} {i : Instr} (h : decodeWrite .buffered p = .instr i) :
    opField p.word = 0x30 ∧ p.data.length = (argField p.word).toNat := by
  simp only [decodeWrite] at h
  split at h
  · rename_i ho
    split at h
    · exact ⟨ho, ‹_›⟩
    · cases h
  · cases h

/-- A packet that the producer port decodes is the encoding of the instruction, a well-formed `WRITE` (R65, R74). -/
theorem encode_of_decodeWrite {m : Mode} {p : Packet} {i : Instr} (h : decodeWrite m p = .instr i) :
    encode i = p ∧ i.port = .producer ∧ i.wellFormed m = true := by
  obtain ⟨rfl, rfl⟩ := Machine.decodeWrite_instr h
  obtain ⟨ho, hlen⟩ := decodeWrite_fields h
  have hfits : p.data.length < 2 ^ 64 := hlen ▸ (argField p.word).isLt
  have hword : (encode (.write p.data)).word = p.word :=
    (append_eq_iff_fields _ _ _).mpr ⟨ho, by simp [Instr.operand, hlen]⟩
  exact ⟨congrArg (Packet.mk · p.data) hword, rfl, by simpa [Instr.wellFormed] using hfits⟩

/-- Settles O1: each port decodes the encodings of its own instructions. -/
theorem decodeOfEncode : Obligations.DecodeOfEncode := by
  intro m i hwf
  cases hp : i.port with
  | command => exact decodeCommand_encode hp hwf
  | producer =>
    cases i with
    | write data =>
      obtain ⟨rfl, hlen⟩ : m = .buffered ∧ data.length < 2 ^ 64 := by simpa [Instr.wellFormed] using hwf
      exact decodeWrite_encode hlen
    | _ => cases hp

/-- Settles O2, by what each port's decoder says of the fields of what it decodes. -/
theorem encodeOfDecoded : Obligations.EncodeOfDecoded := by
  refine ⟨fun m w i h => ?_, fun m p i h => encode_of_decodeWrite h⟩
  obtain ⟨hp, hwf, rfl⟩ := decodeCommand_eq_instr_iff.mp h
  exact ⟨by rw [← payload_eq_nil_of_command hp]; rfl, hp, hwf⟩

/-! ### The opcode table -/

/-- The command port's instructions with `n` for their operand where they have one, in the order of R67. -/
def commandForms (n : Word) : List Instr :=
  [.peek1 n, .read1 n, .peek8 n, .read8 n, .peek16 n, .read16 n, .peek32 n, .read32 n, .peek64 n, .read64 n, .skip n,
    .align, .isAligned, .readBytes n, .len]

/-- The part of the `arg` field that an instruction's row fixes: all of it for format `C0` (R69), else nothing. -/
def Instr.argMask : Instr → Word
  | .align => BitVec.allOnes 64
  | .isAligned => BitVec.allOnes 64
  | .len => BitVec.allOnes 64
  | _ => 0

/-- The row of the opcode table that an instruction belongs to. -/
def Instr.row (i : Instr) : Row :=
  ⟨i.mnemonic, i.port, i.opcode ++ (0 : Word), (0xFF : BitVec 8) ++ i.argMask⟩

/-- An instruction's operand does not choose its row. -/
theorem map_row_commandForms (n : Word) : (commandForms n).map Instr.row = (commandForms 0).map Instr.row := rfl

/-- The opcode table is made of the rows of the instructions (R67). -/
theorem opcodeTable_eq (n : Word) : opcodeTable = (commandForms n).map Instr.row ++ [(Instr.write []).row] := by
  rw [map_row_commandForms]
  rfl

theorem mem_commandForms {i : Instr} (hp : i.port = .command) : i ∈ commandForms i.operand := by
  cases i with
  | write data => cases hp
  | _ => simp [commandForms, Instr.operand]

/-- What the command forms have in common: they are well-formed in `BUFFERED`, and their operand is `n`, or 0 where the
row fixes it. -/
theorem commandForms_spec {n : Word} {i : Instr} (h : i ∈ commandForms n) :
    i.port = .command ∧ i.wellFormed .buffered = true ∧ (n = i.operand ↔ n &&& i.argMask = 0) := by
  have hall : n &&& 18446744073709551615#64 = n := BitVec.and_allOnes
  revert i
  simp [commandForms, Instr.port, Instr.wellFormed, Instr.operand, Instr.argMask, hall]

/-- The command rows of the table are the rows of the command forms. -/
theorem exists_command_row_iff (n : Word) (P : Row → Prop) :
    (∃ r ∈ opcodeTable, r.port = .command ∧ P r) ↔ ∃ i ∈ commandForms n, P i.row := by
  rw [opcodeTable_eq n]
  simp only [List.mem_map, List.mem_append, List.mem_singleton]
  constructor
  · rintro ⟨_, ⟨i, hi, rfl⟩ | rfl, hport, hP⟩
    · exact ⟨i, hi, hP⟩
    · cases hport
  · rintro ⟨i, hi, hP⟩
    exact ⟨i.row, .inl ⟨i, hi, rfl⟩, (commandForms_spec hi).1, hP⟩

/-- An instruction's row covers the words with its opcode whose `arg` field is zero where the row fixes it. -/
theorem row_covers_iff (i : Instr) (w : PortWord) :
    i.row.covers w = true ↔ opField w = i.opcode ∧ argField w &&& i.argMask = 0 := by
  have hand : w &&& i.row.mask = (opField w &&& 0xFF) ++ (argField w &&& i.argMask) := by
    conv_lhs => rw [← opField_append_argField w]
    exact BitVec.and_append
  have hones : opField w &&& 0xFF = opField w := BitVec.and_allOnes
  rw [Row.covers, decide_eq_true_iff, hand, hones, append_eq_iff_fields]
  simp [Instr.row, eq_comm]

/-- A word is covered by the row of a command form that has the word's own operand exactly when it is that form's
encoding. -/
theorem row_covers_iff_encode {w : PortWord} {i : Instr} (h : i ∈ commandForms (argField w)) :
    i.row.covers w = true ↔ (encode i).word = w := by
  obtain ⟨-, -, hoperand⟩ := commandForms_spec h
  rw [row_covers_iff, ← hoperand]
  exact (append_eq_iff_fields _ _ _).symm

/-- Settles O3: both sides say that the word is the encoding of a command form of that name, with the word's own
operand. -/
theorem commandDecoderMatchesOpcodeTable : Obligations.CommandDecoderMatchesOpcodeTable := by
  intro w name
  rw [exists_command_row_iff (argField w) fun r => r.covers w = true ∧ r.mnemonic = name]
  constructor
  · rintro ⟨i, hd, hname⟩
    obtain ⟨hp, -, rfl⟩ := decodeCommand_eq_instr_iff.mp hd
    have hmem : i ∈ commandForms (argField (encode i).word) := by
      rw [encode, argField_append]
      exact mem_commandForms hp
    exact ⟨i, hmem, (row_covers_iff_encode hmem).mpr rfl, hname⟩
  · rintro ⟨i, hmem, hcovers, hname⟩
    obtain ⟨hp, hwf, -⟩ := commandForms_spec hmem
    exact ⟨i, decodeCommand_eq_instr_iff.mpr ⟨hp, hwf, (row_covers_iff_encode hmem).mp hcovers⟩, hname⟩

/-! ### Reserved words -/

/-- Settles O4, by the rows of the decoder: a listed `op` is rejected only in format `C0`, where `arg` decides, or as
`LEN` in `DIRECT`; the last row takes what is not listed. -/
theorem reservedCommandWords : Obligations.ReservedCommandWords := by
  intro m w
  unfold decodeCommand
  split
  case h_12 ho | h_13 ho => simp [ho, noOperand_eq_reject_iff]
  case h_15 ho => cases m <;> simp [ho, noOperand_eq_reject_iff]
  case h_16 =>
    by_contra hlisted
    simp only [imp_false, Decoded.reject.injEq, exists_eq', true_iff, not_or] at *
    obtain ⟨hzero, hgap, hgap', hhigh, -⟩ := hlisted
    omega
  all_goals
    rename_i ho
    simp [ho]

/-- Settles O6, by evaluating the decoder on each word. -/
theorem specWordsDecode : Obligations.SpecWordsDecode :=
  ⟨by decide, by decide, by decide, by decide, by decide⟩

end Sys2Proof

namespace Sys2Proof.Machine

/-! ### The step that takes a transaction from its port -/

theorem step_engine {s : State} (hn : nextTurn s = .engine) : step s = engineTurn (popTurn s) := by
  rw [step, hn, turnStep]

theorem step_producer {s : State} (hn : nextTurn s = .producer) : step s = producerTurn (popTurn s) := by
  rw [step, hn, turnStep]

/-- Settles O5: the agent at its turn finds the reserved word at the head of its port. -/
theorem reservedWordsAreRefused : Obligations.ReservedWordsAreRefused := by
  constructor
  · intro s w rest r hn he hc hd
    rw [step_engine hn]
    simp [engineTurn, he, hc, hd]
  · intro s p rest hn hp hw hm ho
    have hd : decodeWrite s.cfg.mode p = .reject .notWriteHeader := by
      rw [hm]
      exact if_neg ho
    rw [step_producer hn]
    simp [producerTurn, hp, hw, hd]

/-- Settles O7: the agent at its turn finds the decoded transaction at the head of its port. -/
theorem stepRunsTheDecodedInstruction : Obligations.StepRunsTheDecodedInstruction := by
  constructor
  · intro s w rest i hn he hc hd
    rw [step_engine hn]
    simp [engineTurn, he, hc, hd, popTurn]
  · intro s p rest i hn hp hw hd
    rw [step_producer hn]
    simp [producerTurn, hp, hw, hd, popTurn]

/-! ### LEN -/

/-- A result given on an idle engine adds its response and changes nothing else. -/
theorem finish_of_idle {s : State} (h : s.engine = .idle) (v : Word) :
    finish v s = { s with responses := s.responses ++ [⟨.ok, v, []⟩] } := by
  rw [finish, respond, ← h]

/-- `LEN` on an idle engine of `BUFFERED` answers at once (R117). -/
theorem exec_len {s : State} (he : s.engine = .idle) (hm : s.cfg.mode = .buffered) :
    exec .len s = .next { s with responses := s.responses ++ [⟨.ok, lenValue s, []⟩] } := by
  rw [exec_command rfl (by rw [hm]; rfl), onCommandPort_idle he, startOf, runOn_idle rfl, finish_of_idle he]

/-- Settles O37: `LEN` answers its value at once, which is the sink's length where a `u64` holds it. -/
theorem lenCountsTheSink : Obligations.LenCountsTheSink := by
  intro s he hm
  refine ⟨fun hlen => ?_, lenValue s, exec_len he hm⟩
  rw [exec_len he hm, lenValue, if_pos hlen]

/-! ### Every command is answered once -/

/-- The commands unanswered and the responses given are those at the port, the one in progress, and those given. -/
theorem unanswered_add_responses (s : State) :
    s.unanswered + s.responses.length = s.commands.length + owing s :=
  Nat.add_assoc _ _ _

/-- What the engine's steps answer, with no command accepted on the way, conserves the count (R64). -/
theorem Answers.conserves {s t : State} (h : Answers s t) (hc : t.commands = s.commands) :
    t.unanswered + t.responses.length = s.unanswered + s.responses.length ∧
      ∃ rs, t.responses = s.responses ++ rs ∧ rs.length ≤ 1 := by
  obtain ⟨rs, hrs, hlen, -, -⟩ := h.responses
  refine ⟨?_, rs, hrs, hlen⟩
  rw [unanswered_add_responses, unanswered_add_responses, hc, h.owing]

/-- The engine as it stands when it has accepted the command `i` and not begun it. -/
def accepted (i : Instr) (s : State) : State := { s with engine := .busy i (.filling 0) }

/-- A command's whole run, from its acceptance: its local start and the run from there give at most one response. -/
theorem accepted_answers {i : Instr} {s t : State} (hp : i.port = .command) (hr : runOn (startOf i s) = .next t) :
    Answers (accepted i s) t :=
  ((startOf_local i s hp).answers (s := accepted i s) rfl (by simp [accepted])).trans (runOn_answers hr)

/-- Settles O54, by the cases of a step: accepting a command only moves it from the port to the engine, the engine's
steps conserve what it owes and has given, and the producer's turn touches neither. -/
theorem everyCommandIsAnsweredOnce : Obligations.EveryCommandIsAnsweredOnce := by
  intro s t hn hs
  cases step_move hs with
  | noCommand | posts | noWrite | writes | appends => exact ⟨rfl, [], by simp⟩
  | accepts w rest i _ _ he hc _ hp hr =>
    have hstart := startOf_local i { popTurn s with commands := rest } hp
    have hcommands := (hstart.engineFrame.trans (runOn_frame hr)).commands
    have hcons := (accepted_answers hp hr).conserves hcommands
    have hmoved : (accepted i { popTurn s with commands := rest }).unanswered = s.unanswered := by
      simp [State.unanswered, accepted, he, hc]
    rw [hmoved] at hcons
    exact hcons
  | resumes u _ _ _ hu hr =>
    have hcommands := ((engineStep_frame hu).trans (runOn_frame hr)).commands
    exact ((engineStep_answers hu).trans (runOn_answers hr)).conserves hcommands
  | resets h => exact absurd h hn

end Sys2Proof.Machine
end

section
/-! The width-typed commands on the Bit Accumulator (spec/40_accumulator.md, spec/41_stream_reader.md R93): held bits, one
fill from the sink, the end of the data, a read beside the peek of its width; and that no fill asks for no byte (R81). -/

namespace Sys2Proof.Machine

/-! ### No step faults -/

/-- R81: no instruction given to a state that meets the invariant ends in a fault. -/
theorem exec_not_fault {s : State} (h : BlockInv s) (i : Instr) (f : Fault) : exec i s ≠ .fault f := by
  by_cases hp : i.port = .command
  · by_cases hwf : i.wellFormed s.cfg.mode = true
    · rw [exec_command hp hwf]
      by_cases he : s.engine = .idle
      · rw [onCommandPort_idle he]
        exact runOn_not_fault (blockInv_startOf hp h) f
      · rw [onCommandPort_taken he]
        simp
    · cases i with
      | len =>
        have hm : s.cfg.mode = .direct := by
          cases hm : s.cfg.mode with
          | direct => rfl
          | buffered => simp [hm, Instr.wellFormed] at hwf
        simp [exec_len_direct hm]
      | write data => simp [Instr.port] at hp
      | _ => exact absurd rfl hwf
  · cases i with
    | write data =>
      simp only [exec, execWrite]
      split
      · simp
      · simp
      · split
        · split <;> simp
        · simp
    | _ => exact absurd rfl hp

/-- Settles O53, by whose turn it is: the engine's atomic step and its run have room for a byte, an accepted instruction
does not fault, and neither the producer's post nor a reset fills. -/
theorem stepNeverFaults : Obligations.StepNeverFaults := by
  intro s f h
  have hpop := blockInv_popTurn h
  cases hn : nextTurn s with
  | engine =>
    rw [step_engine hn]
    by_cases he : s.engine = .idle
    · simp only [engineTurn, popTurn_engine, he]
      split
      · simp
      · split
        · refine exec_not_fault ?_ _ f
          exact blockInv_congr hpop rfl rfl he.symm rfl
        · simp
    · rw [engineTurn_of_not_idle (by exact he)]
      split
      · rename_i t ht
        exact runOn_not_fault (blockInv_engineStep hpop ht) f
      · rename_i g hg
        exact absurd hg (engineStep_not_fault hpop g)
      · simp
  | producer =>
    rw [step_producer hn]
    unfold producerTurn
    split
    · simp
    · split
      · simp
      · split
        · refine exec_not_fault ?_ _ f
          exact blockInv_congr hpop rfl rfl rfl rfl
        · simp
  | reset => simp [step, hn, turnStep]

/-! ### Answers on an idle engine -/

/-- An error reported on an idle engine adds its response and changes nothing else. -/
theorem raise_of_idle {s : State} (h : s.engine = .idle) (e : Status) :
    raise e s = { s with responses := s.responses ++ [⟨e, 0, []⟩] } := by
  rw [raise, respond, ← h]

theorem count_of_widthForms {n : Word} {w : Nat} {cmd : Instr} (h : (w, cmd) ∈ widthForms n) : count cmd = n.toNat :=
  (widthForms_spec h).2.2.2.1

theorem consumes_of_peek {n : Word} {w : Nat} {cmd : Instr} (h : (w, cmd) ∈ peekForms n) : consumes cmd = false :=
  (widthForms_spec (mem_widthForms_of_peek h)).2.2.2.2.2.2.mpr h

theorem consumes_of_read {n : Word} {w : Nat} {cmd : Instr} (h : (w, cmd) ∈ readForms n) : consumes cmd = true :=
  (widthForms_spec (mem_widthForms_of_read h)).2.2.2.2.2.1.mpr h

/-- A peek that ends adds its response, the top bits, to a state with an idle engine, and consumes nothing (R84). -/
theorem finishWidth_of_peek {n : Word} {w : Nat} {cmd : Instr} (hf : (w, cmd) ∈ peekForms n) {s : State}
    (he : s.engine = .idle) :
    finishWidth cmd s = { s with responses := s.responses ++ [⟨.ok, s.acc.buffer >>> (64 - n.toNat), []⟩] } := by
  rw [finishWidth_peek (consumes_of_peek hf), finish_of_idle he, Acc.top_eq,
    count_of_widthForms (mem_widthForms_of_peek hf)]

/-- A read that ends answers the same and shifts the bits out (R84, R88). -/
theorem finishWidth_of_read {n : Word} {w : Nat} {cmd : Instr} (hf : (w, cmd) ∈ readForms n) {s : State}
    (he : s.engine = .idle) :
    finishWidth cmd s = { s with
      acc := s.acc.drop n.toNat
      responses := s.responses ++ [⟨.ok, s.acc.buffer >>> (64 - n.toNat), []⟩] } := by
  rw [finishWidth_read (consumes_of_read hf), finish_of_idle (by exact he), Acc.top_eq,
    count_of_widthForms (mem_widthForms_of_read hf)]

/-- R82: a width-typed command of more than 56 bits, within its width, while not aligned. -/
theorem exec_width_unaligned {n : Word} {w : Nat} {cmd : Instr} (hf : (w, cmd) ∈ widthForms n) {s : State}
    (he : s.engine = .idle) (h56 : 56 < n.toNat) (hw : n.toNat ≤ w) (hal : s.acc.remaining % 8 ≠ 0) :
    exec cmd s = .next (raise .alignmentOverflow s) := by
  have hcount := count_of_widthForms hf
  have hrange : widthOverflow w (count cmd) = false := (widthOverflow_false_iff _ _).mpr (by omega)
  have hover : alignmentOverflow s.acc (count cmd) = true := (alignmentOverflow_iff _ _).mpr (by omega)
  have hstart : widthStart cmd w s = raise .alignmentOverflow s := by simp [widthStart, hrange, hover]
  rw [exec_width hf he, hstart, runOn_idle rfl]

/-- A response of status `AlignmentOverflow` is the local start's, which gives its cause (R127). -/
theorem cause_of_alignmentOverflow {i : Instr} {s t : State} {rs : List Response} {r : Response}
    (h : exec i s = .next t) (hrs : t.responses = s.responses ++ rs) (hr : r ∈ rs)
    (hst : r.status = .alignmentOverflow) :
    ∃ n, (i = .peek64 n ∨ i = .read64 n) ∧ 56 < n.toNat ∧ n.toNat ≤ 64 ∧ s.acc.remaining % 8 ≠ 0 := by
  have hsilent : t.responses ≠ s.responses := by
    intro h0
    have : rs = [] := by simpa [h0] using hrs
    simp [this] at hr
  by_cases hp : i.port = .command
  · rcases exec_answer hp (exec_next hp h).2 with h0 | ⟨q, hq, hcause⟩
    · exact absurd h0 hsilent
    · obtain rfl : r = q := by
        have : rs = [q] := by simpa [hq, eq_comm] using hrs
        simpa [this] using hr
      rcases hcause with hgood | ⟨hwo, -⟩ | ⟨-, -, hcause⟩
      · exact absurd hst hgood.ao
      · simp [hst] at hwo
      · exact hcause
  · cases i with
    | write data =>
      obtain ⟨-, -, -, ht⟩ := execWrite_next h
      refine absurd ?_ hsilent
      rw [ht]
      split <;> rfl
    | _ => exact absurd rfl hp

/-- Settles O10: the local start makes the two checks in order, and nothing after it reports `AlignmentOverflow`. -/
theorem alignmentOverflowChangesNothing : Obligations.AlignmentOverflowChangesNothing := by
  refine ⟨fun s n cmd hcmd he h56 h64 hal => ?_, fun i s t rs r => cause_of_alignmentOverflow⟩
  have hf : (64, cmd) ∈ widthForms n := by
    rcases hcmd with rfl | rfl <;> simp [widthForms, peekForms, readForms]
  rw [exec_width_unaligned hf he h56 h64 hal, raise_of_idle he]

/-! ### Held bits -/

/-- A skip on an idle engine is the run from `Skip`'s loop. -/
theorem exec_skip {s : State} (he : s.engine = .idle) (n : Word) :
    exec (.skip n) s = engineRun (engineFuel s) (skipLoop (.skip n) n.toNat s) := by
  rw [← (skipLoop_local (.skip n) n.toNat s).engineFuel_eq]
  exact onCommandPort_idle he _

/-- `Skip`'s loop with enough bits held answers (R86). -/
theorem skipLoop_held {cmd : Instr} {owed : Nat} {s : State} (h : owed ≤ s.acc.remaining) :
    skipLoop cmd owed s = finish 0 { s with acc := s.acc.drop owed } := by
  simp [skipLoop, Nat.min_eq_left h]

/-- `Skip`'s loop with too few bits consumes them and goes on to a fill (R86). -/
theorem skipLoop_short {cmd : Instr} {owed : Nat} {s : State} (h : s.acc.remaining < owed) :
    skipLoop cmd owed s = { s with
      acc := s.acc.drop s.acc.remaining
      engine := .busy cmd (.skipping (owed - s.acc.remaining)) } := by
  simp [skipLoop, Nat.min_eq_right h.le, show owed - s.acc.remaining ≠ 0 by omega]

/-- A skip of held bits (R86): its whole effect. -/
theorem exec_skip_held {s : State} {n : Word} (he : s.engine = .idle) (hheld : n.toNat ≤ s.acc.remaining) :
    exec (.skip n) s =
      .next { s with acc := s.acc.drop n.toNat, responses := s.responses ++ [⟨.ok, 0, []⟩] } := by
  rw [exec_skip he, skipLoop_held hheld, engineRun_idle rfl, finish_of_idle (by exact he)]

/-- Settles O24, by `Skip`'s loop with enough bits held. -/
theorem skipConsumesHeldBits : Obligations.SkipConsumesHeldBits := by
  intro s n he hheld
  rw [exec_skip_held he hheld, Acc.drop]

/-- An admitted width-typed command on an idle engine is the run from `Peek`'s loop. -/
theorem exec_width_admitted {n : Word} {w : Nat} {cmd : Instr} (hf : (w, cmd) ∈ widthForms n) {s : State}
    (he : s.engine = .idle) (ha : Admitted s w n) : exec cmd s = engineRun (engineFuel s) (peekLoop cmd 0 s) := by
  rw [exec_width hf he, widthStart_admitted hf ha, runOn, (peekLoop_local cmd 0 s).engineFuel_eq]

/-- An admitted width-typed command whose bits are held ends at once (R84). -/
theorem exec_width_held {n : Word} {w : Nat} {cmd : Instr} (hf : (w, cmd) ∈ widthForms n) {s : State}
    (he : s.engine = .idle) (ha : Admitted s w n) (hheld : n.toNat ≤ s.acc.remaining) :
    exec cmd s = .next (finishWidth cmd s) := by
  rw [exec_width_admitted hf he ha, peekLoop_held (by rwa [count_of_widthForms hf]),
    engineRun_idle (finishWidth_idle cmd s)]

/-- Settles O11, by the end of a peek. -/
theorem peekReturnsHeldBits : Obligations.PeekReturnsHeldBits := by
  intro s n w cmd hf he ha hheld
  rw [exec_width_held (mem_widthForms_of_peek hf) he ha hheld, finishWidth_of_peek hf he]

/-- Settles O12, by the end of a read. -/
theorem readReturnsAndConsumesHeldBits : Obligations.ReadReturnsAndConsumesHeldBits := by
  intro s n w cmd hf he ha hheld
  rw [exec_width_held (mem_widthForms_of_read hf) he ha hheld, finishWidth_of_read hf he, Acc.drop]

/-! ### A fill from the sink -/

/-- An admitted width-typed command that needs a fill has room for a byte (R81). -/
theorem Admitted.cap_ne_zero {n : Word} {w : Nat} {cmd : Instr} (hf : (w, cmd) ∈ widthForms n) {s : State}
    (ha : Admitted s w n) (hshort : s.acc.remaining < n.toNat) : s.acc.cap ≠ 0 :=
  (Acc.cap_pos (ha.2.1.trans (widthForms_spec hf).2.2.2.2.1) ha.2.2 hshort).ne'

/-- The state in which a fill has pulled what fits from the sink of `BUFFERED`, and its bytes are absorbed (R51, R80). -/
def sinkFilled (s : State) : State :=
  { pulled s.acc.cap s with acc := s.acc.absorb (s.sink.take s.acc.cap) }

/-- The atomic step of a width-typed command in `BUFFERED` that finds bytes in the sink: it absorbs what came, and `Peek`'s
loop goes on (R80, R83). -/
theorem pullStep_filling {cmd : Instr} {got : Nat} {e : Engine} {s : State} (hcap : s.acc.cap ≠ 0) (hs : s.sink ≠ []) :
    pullStep cmd (.filling got) { s with engine := e } =
      peekLoop cmd (got + (s.sink.take s.acc.cap).length) (sinkFilled s) := by
  have hbytes : s.sink.take s.acc.cap ≠ [] := by simp [hcap, hs]
  rw [pullStep_nonempty (by exact hs)]
  simp only [request, deliver, fillWith, List.isEmpty_iff, hbytes, if_false]
  exact peekLoop_engine_irrel cmd _ (.busy cmd (.filling got)) (sinkFilled s)

/-- An admitted, uninterrupted width-typed command in `BUFFERED` that one pull is enough for: its whole effect (R80, R83,
R90). -/
theorem exec_width_of_sink {n : Word} {w : Nat} {cmd : Instr} (hf : (w, cmd) ∈ widthForms n) {s : State}
    (hu : Uninterrupted s) (hm : s.cfg.mode = .buffered) (ha : Admitted s w n) (hshort : s.acc.remaining < n.toNat)
    (henough : n.toNat ≤ s.sinkBits) : exec cmd s = .next (finishWidth cmd (sinkFilled s)) := by
  obtain ⟨he, ht⟩ := hu
  have hcount := count_of_widthForms hf
  have hn : n.toNat ≤ 64 := ha.2.1.trans (widthForms_spec hf).2.2.2.2.1
  have hcap := ha.cap_ne_zero hf hshort
  have hfull := Acc.cap_enough hn ha.2.2 hshort
  have hs : s.sink ≠ [] := by
    intro h0
    simp only [State.sinkBits, h0, List.length_nil] at henough
    omega
  have hheld : n.toNat ≤ (sinkFilled s).acc.remaining := by
    simp only [State.sinkBits] at henough
    simp only [sinkFilled, Acc.absorb_remaining, List.length_take]
    omega
  rw [exec_width_admitted hf he ha, peekLoop_short (hcount ▸ hshort)]
  refine engineRun_busy (fuel := _ + 3) rfl ht hcap ?_
  rw [if_neg (by simp [hm]), pullStep_filling hcap hs, peekLoop_held (hcount ▸ hheld)]
  exact engineRun_idle (finishWidth_idle cmd _) _

/-- Settles O13: the pull is enough, and a peek ends. -/
theorem peekFillsFromTheSink : Obligations.PeekFillsFromTheSink := by
  intro s n w cmd hf hu hm ha hshort henough
  rw [exec_width_of_sink (mem_widthForms_of_peek hf) hu hm ha hshort henough,
    finishWidth_of_peek (s := sinkFilled s) hf hu.1]
  rfl

/-- Settles O14: the pull is enough, and a read ends. -/
theorem readFillsFromTheSink : Obligations.ReadFillsFromTheSink := by
  intro s n w cmd hf hu hm ha hshort henough
  rw [exec_width_of_sink (mem_widthForms_of_read hf) hu hm ha hshort henough,
    finishWidth_of_read (s := sinkFilled s) hf hu.1]
  rfl

/-! ### The end of the data -/

/-- What a width-typed command answers to a fill that brings nothing, its own count of bytes being zero (R128(a),
R129(a)). -/
theorem endStatus_of_none {n : Word} {w : Nat} {cmd : Instr} (hf : (w, cmd) ∈ widthForms n) (cfg : Config) :
    endStatus cfg cmd 0 = if (w, cmd) ∈ readForms n then .unexpectedEndOfData else .endOfData := by
  obtain ⟨-, -, -, -, -, hread, -⟩ := widthForms_spec hf
  simp only [endStatus, hread]
  rfl

/-- What it answers when it has obtained bytes, but too few (R83, R129(c), D8). -/
theorem endStatus_of_some {n : Word} {w : Nat} {cmd : Instr} (hf : (w, cmd) ∈ widthForms n) (cfg : Config) {got : Nat}
    (hgot : got ≠ 0) :
    endStatus cfg cmd got =
      if (w, cmd) ∈ readForms n then .unexpectedEndOfData
      else if cfg.partialEof = .endOfData then .endOfData else .unexpectedEndOfData := by
  obtain ⟨-, -, -, -, -, hread, -⟩ := widthForms_spec hf
  simp only [endStatus, hread, peekEndStatus, hgot, if_false]
  cases cfg.partialEof <;> rfl

/-- `Peek`'s loop in `DIRECT` whose next fill is answered `(0, EndOfData)`: the command ends with what it holds (R83,
R89). -/
theorem engineRun_endOfData {cmd : Instr} {got : Nat} {s : State} {src : Source} (ht : s.turns = [])
    (hm : s.cfg.mode = .direct) (hshort : s.acc.remaining < count cmd) (hcap : s.acc.cap ≠ 0)
    (hans : s.source.answer s.acc.cap = ([], .endOfData, src)) (fuel : Nat) :
    engineRun (fuel + 1) (peekLoop cmd got s) =
      .next (raise (endStatus s.cfg cmd got) (record s.acc.cap [] .endOfData { s with source := src })) := by
  rw [peekLoop_short hshort]
  refine engineRun_busy rfl ht hcap ?_
  rw [if_pos hm]
  simp only [directStep, request, hans]
  exact engineRun_idle rfl fuel

/-- Settles O17: the first fill is the end of the data. -/
theorem exhaustedSourceEndsWidthCommands : Obligations.ExhaustedSourceEndsWidthCommands := by
  intro s n w cmd src hf ⟨he, ht⟩ hm ha hshort hans
  have hend := engineRun_endOfData (cmd := cmd) (got := 0) ht hm (count_of_widthForms hf ▸ hshort)
    (ha.cap_ne_zero hf hshort) hans
  rw [raise_of_idle (by exact he), endStatus_of_none hf] at hend
  rw [exec_width_admitted hf he ha]
  exact hend _

/-- `Peek`'s loop in `DIRECT` through one fill that brings it on (R80, R83). -/
theorem engineRun_filling {cmd : Instr} {got : Nat} {s : State} {e : Exchange} (ht : s.turns = [])
    (hm : s.cfg.mode = .direct) (hshort : s.acc.remaining < count cmd) (hcap : s.acc.cap ≠ 0)
    (hmax : e.max = (64 - s.acc.remaining) / 8) (hbytes : (s.source.answer e.max).1 = e.bytes)
    (hstatus : (s.source.answer e.max).2.1 = e.status) (hne : ¬ (e.bytes = [] ∧ e.status = .endOfData)) (fuel : Nat) :
    engineRun (fuel + 1) (peekLoop cmd got s) =
      engineRun fuel (peekLoop cmd (got + e.bytes.length) (filled e s)) := by
  have hfill := directStep_filling (s := { s with engine := .busy cmd (.filling got) }) (got := got) hshort hmax hbytes
    hstatus hne
  rw [peekLoop_short hshort]
  refine engineRun_busy rfl ht hcap ?_
  rw [if_pos hm, hfill]
  exact congrArg _ (peekLoop_engine_irrel cmd _ _ (filled e s))

/-- An admitted width-typed command in `DIRECT` whose first fill is too short and whose second meets the end of the data: the
bytes stay, and the status is that of a command that has obtained some (R83, R89). -/
theorem exec_width_short {n : Word} {w : Nat} {cmd : Instr} (hf : (w, cmd) ∈ widthForms n) {s : State} {e : Exchange}
    {src : Source} (hu : Uninterrupted s) (hm : s.cfg.mode = .direct) (ha : Admitted s w n)
    (hmax : e.max = (64 - s.acc.remaining) / 8) (hbytes : (s.source.answer e.max).1 = e.bytes)
    (hstatus : (s.source.answer e.max).2.1 = e.status) (hne : e.bytes ≠ [])
    (hshort : (filled e s).acc.remaining < n.toNat)
    (hans : (filled e s).source.answer (filled e s).acc.cap = ([], .endOfData, src)) :
    exec cmd s = .next (raise (endStatus s.cfg cmd e.bytes.length)
      (record (filled e s).acc.cap [] .endOfData { filled e s with source := src })) := by
  obtain ⟨he, ht⟩ := hu
  have hrem : (filled e s).acc.remaining = s.acc.remaining + 8 * e.bytes.length := Acc.absorb_remaining _ _
  have hshort0 : s.acc.remaining < n.toNat := by omega
  have ha' : Admitted (filled e s) w n := ⟨ha.1, ha.2.1, by have := ha.2.2; omega⟩
  have hfill := engineRun_filling (cmd := cmd) (got := 0) ht hm (count_of_widthForms hf ▸ hshort0)
    (ha.cap_ne_zero hf hshort0) hmax hbytes hstatus (fun h => hne h.1)
  have hend := engineRun_endOfData (got := 0 + e.bytes.length) (s := filled e s) ht hm
    (count_of_widthForms hf ▸ hshort) (ha'.cap_ne_zero hf hshort) hans
  rw [Nat.zero_add] at hfill hend
  rw [exec_width_admitted hf he ha]
  exact (hfill _).trans (hend _)

/-- Settles O18: one fill that is too short, and then the end of the data. -/
theorem partialFillKeepsItsBytes : Obligations.PartialFillKeepsItsBytes := by
  intro s n w cmd bytes st src src' hf hu hm ha hans hne hshort hans'
  have hlength : bytes.length ≠ 0 := by simpa using hne
  rw [exec_width_short (e := ⟨(64 - s.acc.remaining) / 8, bytes, st⟩) (src := src') hf hu hm ha rfl (by rw [hans])
    (by rw [hans]) hne (by simpa [filled] using hshort) (by simpa [filled, Acc.cap, hans] using hans'),
    raise_of_idle (by exact hu.1), endStatus_of_some hf _ hlength]
  simp [filled, record, Acc.cap]

/-! ### Unanswered commands -/

/-- Settles O21: a command that still fills or has failed has moved no cursor, and then what it took since is held. -/
theorem unansweredWidthCommandsKeepTheCursor : Obligations.UnansweredWidthCommandsKeepTheCursor := by
  intro s t n w cmd hf hs h hunanswered
  have hcursor : t.cursor = s.cursor := by
    cases widthRun_exec hf hs h with
    | filling got he hr hc => exact hc
    | answered r he hr ha =>
      have herror : ¬ r.status = .ok := by
        intro hok
        refine hunanswered r.value r.data ?_
        rw [hr, ← hok]
      simpa [herror] using ha.cursor
  obtain ⟨more, hmore⟩ := (exec_frame (widthForms_spec hf).1 h).taken
  have hbefore : s.acc.remaining ≤ 8 * s.taken.length := hs.stream.1
  have hafter : t.acc.remaining ≤ 8 * t.taken.length := (blockInv_exec hs h).stream.1
  have hlength : t.taken.length = s.taken.length + more.length := by rw [hmore, List.length_append]
  refine ⟨hcursor, ?_⟩
  simp only [State.cursor] at hcursor
  omega

/-! ### A read beside the peek of its width -/

/-- A command that has been answered is over: its response is its only one (R27, R64). -/
theorem idle_of_exec_answered {i : Instr} {s t : State} (hp : i.port = .command) (h : exec i s = .next t) {r : Response}
    (hr : t.responses = s.responses ++ [r]) : t.engine = .idle := by
  obtain ⟨rs, hrs, -, -, hidle⟩ := (accepted_answers hp (exec_next hp h).2).responses
  refine hidle ?_
  rintro rfl
  simp [accepted, hr] at hrs

/-- Where a peek and the read of its width and count stand that run side by side from one state: both fill or both wait, in
the same state but for the command; both have their bits, and the read has shifted them out (R88); or both have failed, the
read with the peek's status re-signalled. -/
inductive Beside (w : Nat) (n : Word) (peek read : Instr) : State → State → Prop where
  | filling (u : State) (got : Nat) (ha : Admitted u w n) (hshort : u.acc.remaining < n.toNat) :
      Beside w n peek read { u with engine := .busy peek (.filling got) } { u with engine := .busy read (.filling got) }
  | waiting (u : State) (got : Nat) (ha : Admitted u w n) (hshort : u.acc.remaining < n.toNat) :
      Beside w n peek read { u with engine := .waiting peek (.filling got) }
        { u with engine := .waiting read (.filling got) }
  | held (u : State) (ha : Admitted u w n) (hheld : n.toNat ≤ u.acc.remaining) :
      Beside w n peek read (finish (u.acc.top n.toNat) u)
        (finish (u.acc.top n.toNat) { u with acc := u.acc.drop n.toNat })
  | failed (u : State) (e : Status) (he : e ≠ .ok) : Beside w n peek read (raise e u) (raise (readStatus e) u)

/-- The atomic step of a busy engine in `DIRECT`. -/
theorem engineStep_direct {cmd : Instr} {p : Progress} {s : State} (hm : s.cfg.mode = .direct)
    (hr : request s.acc p ≠ 0) :
    engineStep { s with engine := .busy cmd p } = .next (directStep cmd p { s with engine := .busy cmd p }) := by
  rw [engineStep_busy (s := { s with engine := .busy cmd p }) rfl hr]
  simp [hm]

/-- The atomic step of a busy engine in `BUFFERED`. -/
theorem engineStep_buffered {cmd : Instr} {p : Progress} {s : State} (hm : s.cfg.mode = .buffered)
    (hr : request s.acc p ≠ 0) :
    engineStep { s with engine := .busy cmd p } = .next (pullStep cmd p { s with engine := .busy cmd p }) := by
  rw [engineStep_busy (s := { s with engine := .busy cmd p }) rfl hr]
  simp [hm]

section
variable {w : Nat} {n : Word} {peek read : Instr}

/-- Both run on for the same steps. -/
theorem Beside.same_schedule {a b : State} (h : Beside w n peek read a b) :
    engineReady a = engineReady b ∧ a.turns = b.turns ∧ engineFuel a = engineFuel b := by
  cases h <;> exact ⟨rfl, rfl, rfl⟩

variable (hp : (w, peek) ∈ peekForms n) (hr : (w, read) ∈ readForms n)
include hp hr

theorem beside_peekLoop {u : State} (ha : Admitted u w n) (got : Nat) :
    Beside w n peek read (peekLoop peek got u) (peekLoop read got u) := by
  have hcp := count_of_widthForms (mem_widthForms_of_peek hp)
  have hcr := count_of_widthForms (mem_widthForms_of_read hr)
  by_cases hheld : n.toNat ≤ u.acc.remaining
  · rw [peekLoop_held (hcp ▸ hheld), peekLoop_held (hcr ▸ hheld), finishWidth_peek (consumes_of_peek hp),
      finishWidth_read (consumes_of_read hr), hcp, hcr]
    exact .held u ha hheld
  · rw [peekLoop_short (by omega), peekLoop_short (by omega)]
    exact .filling u got ha (by omega)

/-- The two checks of R93 are the same for both. -/
theorem beside_widthStart (s : State) : Beside w n peek read (widthStart peek w s) (widthStart read w s) := by
  have hcp := count_of_widthForms (mem_widthForms_of_peek hp)
  have hcr := count_of_widthForms (mem_widthForms_of_read hr)
  by_cases hwidth : widthOverflow w n.toNat = true
  · simp only [widthStart, hcp, hcr, hwidth, if_true]
    exact .failed s .widthOverflow (by simp)
  · by_cases halign : alignmentOverflow s.acc n.toNat = true
    · simp only [widthStart, hcp, hcr, hwidth, halign, if_true]
      exact .failed s .alignmentOverflow (by simp)
    · obtain ⟨hmin, hmax⟩ := (widthOverflow_false_iff w n.toNat).mp (by simpa using hwidth)
      have ha : Admitted s w n :=
        ⟨hmin, hmax, (alignmentOverflow_false_iff s.acc n.toNat).mp (by simpa using halign)⟩
      rw [widthStart_admitted (mem_widthForms_of_peek hp) ha, widthStart_admitted (mem_widthForms_of_read hr) ha]
      exact beside_peekLoop hp hr ha 0

/-- The same answer to a fill brings both on alike. -/
theorem beside_deliver {u : State} (ha : Admitted u w n) (hshort : u.acc.remaining < n.toNat) (got : Nat)
    (bytes : List Byte) (st : SrcStatus) :
    Beside w n peek read (deliver peek (.filling got) bytes st u) (deliver read (.filling got) bytes st u) := by
  have hcp := count_of_widthForms (mem_widthForms_of_peek hp)
  have hcr := count_of_widthForms (mem_widthForms_of_read hr)
  by_cases hend : bytes = [] ∧ st = .endOfData
  · obtain ⟨rfl, rfl⟩ := hend
    have hstatus : endStatus u.cfg peek got = peekEndStatus u.cfg got := by simp [endStatus, consumes_of_peek hp]
    have hresignal : endStatus u.cfg read got = readStatus (peekEndStatus u.cfg got) := by
      simp [endStatus, consumes_of_read hr]
    have hfailed : peekEndStatus u.cfg got ≠ .ok := by
      rcases endStatus_good u.cfg peek got with h | h <;> simp [← hstatus, h]
    have := Beside.failed (w := w) (n := n) (peek := peek) (read := read) u _ hfailed
    rwa [← hresignal, ← hstatus] at this
  · rw [deliver_filling (hcp ▸ hshort) hend, deliver_filling (hcr ▸ hshort) hend]
    have hsame := beside_peekLoop hp hr (u := { u with acc := u.acc.absorb bytes })
      ⟨ha.1, ha.2.1, by have := ha.2.2; simp only [Acc.absorb_remaining]; omega⟩ (got + bytes.length)
    rwa [← peekLoop_engine_irrel peek _ (.busy peek (.filling got)),
      ← peekLoop_engine_irrel read _ (.busy read (.filling got))] at hsame

/-- One atomic step of both. -/
theorem beside_engineStep {a b : State} (h : Beside w n peek read a b) :
    ∃ a' b', engineStep a = .next a' ∧ engineStep b = .next b' ∧ Beside w n peek read a' b' := by
  cases h with
  | filling u got ha hshort =>
    have hreq : request u.acc (.filling got) ≠ 0 := ha.cap_ne_zero (mem_widthForms_of_peek hp) hshort
    cases hm : u.cfg.mode with
    | direct =>
      refine ⟨_, _, engineStep_direct hm hreq, engineStep_direct hm hreq, ?_⟩
      exact beside_deliver hp hr (u := record u.acc.cap _ _ { u with source := _ }) ha hshort got _ _
    | buffered =>
      refine ⟨_, _, engineStep_buffered hm hreq, engineStep_buffered hm hreq, ?_⟩
      by_cases hs : u.sink = []
      · rw [pullStep_empty (by exact hs), pullStep_empty (by exact hs)]
        exact .waiting u got ha hshort
      · rw [pullStep_nonempty (by exact hs), pullStep_nonempty (by exact hs)]
        exact beside_deliver hp hr (u := pulled _ u) ha hshort got _ _
  | waiting u got ha hshort =>
    by_cases hw : u.wake = true
    · exact ⟨_, _, by simp [engineStep, hw], by simp [engineStep, hw], .filling (wakeTake u) got ha hshort⟩
    · exact ⟨_, _, by simp [engineStep, hw], by simp [engineStep, hw], .waiting u got ha hshort⟩
  | held u ha hheld => exact ⟨_, _, rfl, rfl, .held u ha hheld⟩
  | failed u e he => exact ⟨_, _, rfl, rfl, .failed u e he⟩

theorem beside_engineRun (fuel : Nat) {a b : State} (h : Beside w n peek read a b) :
    ∃ a' b', engineRun fuel a = .next a' ∧ engineRun fuel b = .next b' ∧ Beside w n peek read a' b' := by
  induction fuel generalizing a b with
  | zero => exact ⟨a, b, rfl, rfl, h⟩
  | succ fuel ih =>
    obtain ⟨hready, hturns, -⟩ := h.same_schedule
    obtain ⟨c, d, hc, hd, hnext⟩ := beside_engineStep hp hr h
    simp only [engineRun, ← hready, ← hturns, hc, hd]
    split
    · exact ih hnext
    · exact ⟨a, b, rfl, rfl, h⟩

/-- A peek that answers next has the read beside it. -/
theorem beside_exec {s t : State} (h : exec peek s = .next t) :
    ∃ t', exec read s = .next t' ∧ Beside w n peek read t t' := by
  have he := (exec_next (widthForms_spec (mem_widthForms_of_peek hp)).1 h).1
  have hstart := beside_widthStart hp hr s
  obtain ⟨c, d, hc, hd, hend⟩ := beside_engineRun hp hr (engineFuel (widthStart peek w s)) hstart
  rw [exec_width (mem_widthForms_of_peek hp) he, runOn, hc] at h
  cases h
  refine ⟨d, ?_, hend⟩
  rw [exec_width (mem_widthForms_of_read hr) he, runOn, ← hstart.same_schedule.2.2, hd]

end

/-- A peek that has answered, and the read beside it: both ended with their bits, or both failed. -/
inductive Ended (w : Nat) (n : Word) (s : State) (r : Response) (t t' : State) : Prop where
  | held (ha : Admitted t w n) (hheld : n.toNat ≤ t.acc.remaining) (hr : r = ⟨.ok, t.acc.top n.toNat, []⟩)
      (ht' : t' = { t with acc := t.acc.drop n.toNat })
  | failed (e : Status) (he : e ≠ .ok) (hr : r = ⟨e, 0, []⟩)
      (ht' : t' = { t with responses := s.responses ++ [⟨readStatus e, 0, []⟩] })

theorem ended_of_beside {w : Nat} {n : Word} {peek read : Instr} {s t t' : State} {r : Response}
    (h : Beside w n peek read t t') (hidle : t.engine = .idle) (hr : t.responses = s.responses ++ [r]) :
    Ended w n s r t t' := by
  cases h with
  | filling | waiting => cases hidle
  | held u ha hheld => exact .held ha hheld (by simpa using (List.append_inj' hr rfl).2.symm) rfl
  | failed u e he =>
    obtain ⟨hu, hlast⟩ := List.append_inj' hr rfl
    refine .failed e he (by simpa using hlast.symm) ?_
    rw [← hu]
    rfl

/-- The same index names a peek and the read of its width. -/
theorem exists_read_of_peek {n : Word} {w : Nat} {peek : Instr} (h : (w, peek) ∈ peekForms n) :
    ∃ read, (w, read) ∈ readForms n := by
  simp only [peekForms, List.mem_cons, Prod.mk.injEq, List.not_mem_nil, or_false] at h
  rcases h with h | h | h | h | h <;> exact ⟨_, by simp [readForms, h.1]; rfl⟩

/-- Settles O22: the first peek ends with its bits held, so the second answers at once, with the same bits. -/
theorem peekTwiceIsTheSame : Obligations.PeekTwiceIsTheSame := by
  intro s t n w cmd r hf h hr hok
  have hwf := mem_widthForms_of_peek hf
  obtain ⟨read, hread⟩ := exists_read_of_peek hf
  obtain ⟨t', -, hbeside⟩ := beside_exec hf hread h
  have hidle := idle_of_exec_answered (widthForms_spec hwf).1 h hr
  cases ended_of_beside hbeside hidle hr with
  | held ha hheld hanswer =>
    rw [exec_width_held hwf hidle ha hheld, finishWidth_of_peek hf hidle, hanswer, Acc.top_eq]
  | failed e he hanswer =>
    rw [hanswer] at hok
    exact absurd hok he

theorem readStatus_eq (e : Status) : readStatus e = if e = .endOfData then .unexpectedEndOfData else e := by
  cases e <;> rfl

/-- Settles O23: the read ends beside the peek, and a skip of bits that are held shifts them out at once. -/
theorem readIsPeekThenSkip : Obligations.ReadIsPeekThenSkip := by
  intro s t n k w peek read r hpeek hread h hr
  have hp := List.mem_of_getElem? hpeek
  obtain ⟨t', hexec, hbeside⟩ := beside_exec hp (List.mem_of_getElem? hread) h
  have hidle := idle_of_exec_answered (widthForms_spec (mem_widthForms_of_peek hp)).1 h hr
  cases ended_of_beside hbeside hidle hr with
  | held ha hheld hanswer ht' =>
    refine ⟨fun _ => ⟨_, exec_skip_held hidle hheld, rfl, ?_⟩, fun herror => ?_⟩
    · rw [hexec, ht', ← hr]
    · simp [hanswer] at herror
  | failed e he hanswer ht' =>
    refine ⟨fun hok => ?_, fun _ => ?_⟩
    · rw [hanswer] at hok
      exact absurd hok he
    · rw [hexec, ht', hanswer, readStatus_eq]

end Sys2Proof.Machine
end

section
/-! `SKIP` over any number of fills (spec/40_accumulator.md R86, R87): what its loop does up to any number of bits, that it
completes when the bits are there, and how it ends when they are not. -/

namespace Sys2Proof.Machine

/-! ### A fill -/

/-- One fill that brings a command on (R80), from the source of `DIRECT`, which does not answer `(0, EndOfData)`, or from the
sink of `BUFFERED`, which is not empty. -/
inductive Fill (s : State) : State → Prop where
  | source (e : Exchange) (hm : s.cfg.mode = .direct) (hmax : e.max = s.acc.cap)
      (hbytes : (s.source.answer e.max).1 = e.bytes) (hstatus : (s.source.answer e.max).2.1 = e.status)
      (hne : ¬ (e.bytes = [] ∧ e.status = .endOfData)) : Fill s (filled e s)
  | sink (hm : s.cfg.mode = .buffered) (hs : s.sink ≠ []) : Fill s (sinkFilled s)

/-- What a fill changes (R34). -/
theorem Fill.frame {s t : State} (h : Fill s t) :
    t = { s with acc := t.acc, sink := t.sink, source := t.source, exchanges := t.exchanges } := by
  cases h <;> rfl

/-- A fill does not depend on the engine's place or on the responses given. -/
theorem Fill.congr {s t : State} (h : Fill s t) (e : Engine) (rs : List Response) :
    Fill { s with engine := e, responses := rs } { t with engine := e, responses := rs } := by
  cases h with
  | source x hm hmax hbytes hstatus hne =>
    exact .source (s := { s with engine := e, responses := rs }) x hm hmax hbytes hstatus hne
  | sink hm hs => exact .sink (s := { s with engine := e, responses := rs }) hm hs

/-! ### Skip's loop over its fills -/

/-- `Skip`'s loop sets the engine's place in either of its branches, whatever it was. -/
theorem skipLoop_engine_irrel (cmd : Instr) (owed : Nat) (e : Engine) (s : State) :
    skipLoop cmd owed { s with engine := e } = skipLoop cmd owed s := by
  simp only [skipLoop]
  split <;> rfl

/-- `Skips j owed s t`: skipping `owed` bits from `s`, over `j` fills, leads to `t` (R86). Each fill is made once the held bits
are consumed. -/
inductive Skips : Nat → Nat → State → State → Prop where
  | held {owed : Nat} {s : State} (h : owed ≤ s.acc.remaining) : Skips 0 owed s { s with acc := s.acc.drop owed }
  | fill {j owed : Nat} {s u t : State} (h : s.acc.remaining < owed)
      (hf : Fill { s with acc := s.acc.drop s.acc.remaining } u) (hr : Skips j (owed - s.acc.remaining) u t) :
      Skips (j + 1) owed s t

theorem Skips.frame {j owed : Nat} {s t : State} (h : Skips j owed s t) :
    t = { s with acc := t.acc, sink := t.sink, source := t.source, exchanges := t.exchanges } := by
  induction h with
  | held h => rfl
  | fill h hf hr ih => rw [ih, hf.frame]

theorem Skips.congr {j owed : Nat} {s t : State} (h : Skips j owed s t) (e : Engine) (rs : List Response) :
    Skips j owed { s with engine := e, responses := rs } { t with engine := e, responses := rs } := by
  induction h with
  | @held owed s h => exact .held (s := { s with engine := e, responses := rs }) h
  | @fill j owed s u t h hf hr ih =>
    exact .fill (s := { s with engine := e, responses := rs }) h (hf.congr e rs) ih

/-- A skip's fill that brings it on: with bytes or with `(0, OK)`, `Skip`'s loop goes on (R80, R86). -/
theorem deliver_skipping {cmd : Instr} {owed : Nat} {bytes : List Byte} {st : SrcStatus} {s : State}
    (hempty : s.acc.remaining = 0) (howed : owed ≠ 0) (hne : ¬ (bytes = [] ∧ st = .endOfData)) :
    deliver cmd (.skipping owed) bytes st s = skipLoop cmd owed { s with acc := s.acc.absorb bytes } := by
  cases bytes with
  | cons b bs => exact skipLoop_engine_irrel cmd owed _ { s with acc := s.acc.absorb (b :: bs) }
  | nil =>
    cases st with
    | ok => simp [deliver, fillWith, skipLoop_short (show s.acc.remaining < owed by omega), hempty, Acc.drop_zero]
    | endOfData => simp at hne

/-- The atomic step of a skip whose fill brings it on. -/
theorem engineStep_skipping {cmd : Instr} {owed : Nat} {s u : State} (hempty : s.acc.remaining = 0) (howed : owed ≠ 0)
    (h : Fill s u) : engineStep { s with engine := .busy cmd (.skipping owed) } = .next (skipLoop cmd owed u) := by
  have hcap : s.acc.cap ≠ 0 := by simp [Acc.cap, hempty]
  cases h with
  | source e hm hmax hbytes hstatus hne =>
    rw [engineStep_direct hm (by exact hcap)]
    simp only [directStep, request, ← hmax, hbytes, hstatus]
    rw [deliver_skipping (by exact hempty) howed hne]
    exact congrArg _ (skipLoop_engine_irrel cmd owed (.busy cmd (.skipping owed)) (filled e s))
  | sink hm hs =>
    rw [engineStep_buffered hm (by exact hcap), pullStep_nonempty (by exact hs),
      deliver_skipping (by exact hempty) howed (fun h => by cases h.2)]
    exact congrArg _ (skipLoop_engine_irrel cmd owed (.busy cmd (.skipping owed)) (sinkFilled s))

/-- `Skip`'s loop through one fill (R86). -/
theorem engineRun_skip_fill {cmd : Instr} {owed : Nat} {s u : State} (ht : s.turns = [])
    (hshort : s.acc.remaining < owed) (hf : Fill { s with acc := s.acc.drop s.acc.remaining } u) (fuel : Nat) :
    engineRun (fuel + 1) (skipLoop cmd owed s) = engineRun fuel (skipLoop cmd (owed - s.acc.remaining) u) := by
  have hstep := engineStep_skipping (cmd := cmd) (owed := owed - s.acc.remaining) (by simp) (by omega) hf
  rw [skipLoop_short hshort]
  exact engineRun_goes_on rfl (by exact ht) hstep fuel

/-- An uninterrupted skip goes through the first `a` of its bits, one atomic step for each fill, to `Skip`'s loop on the
rest (R86). -/
theorem engineRun_skips {cmd : Instr} {j a : Nat} {s t : State} (h : Skips j a s t) (ht : s.turns = []) (b fuel : Nat) :
    engineRun (fuel + j) (skipLoop cmd (a + b) s) = engineRun fuel (skipLoop cmd b t) := by
  induction h with
  | @held a s h =>
    refine congrArg _ ?_
    by_cases hb : a + b ≤ s.acc.remaining
    · rw [skipLoop_held hb, skipLoop_held (by rw [Acc.drop_remaining]; omega), Acc.drop_drop]
    · have hsub : a + b - s.acc.remaining = b - (s.acc.remaining - a) := by omega
      rw [skipLoop_short (by omega), skipLoop_short (by rw [Acc.drop_remaining]; omega), Acc.drop_remaining,
        Acc.drop_drop, Nat.add_sub_cancel' h, hsub]
  | @fill j a s u t h hf hr ih =>
    have hsub : a + b - s.acc.remaining = a - s.acc.remaining + b := by omega
    rw [← Nat.add_assoc, engineRun_skip_fill ht (by omega) hf, hsub, ih (by rw [hf.frame]; exact ht)]

/-! ### Every answered skip is such a loop -/

/-- A command that waits for bytes, or is about to, with nothing in the sink, is never answered by the engine alone
(R112, R120). -/
theorem unanswered_of_empty_sink {s t : State} (hm : s.cfg.mode = .buffered) (hs : s.sink = []) (he : s.engine ≠ .idle)
    {fuel : Nat} (h : engineRun fuel s = .next t) : t.responses = s.responses := by
  refine (engineRun_induction
    (P := fun u => u.cfg.mode = .buffered ∧ u.sink = [] ∧ u.engine ≠ .idle ∧ u.responses = s.responses) ?_ fuel
    ⟨hm, hs, he, rfl⟩ h).2.2.2
  rintro u v ⟨hum, hus, hue, hur⟩ hstep
  cases engineStep_move hstep with
  | rests => exact ⟨hum, hus, hue, hur⟩
  | takes | blocks => exact ⟨hum, hus, by simp, hur⟩
  | asks _ _ _ _ hd => simp [hum] at hd
  | pulls _ _ _ _ _ hne => exact absurd hus hne

/-- A fill brings the command on, or the source says that the data have ended, or the sink is empty. -/
theorem fill_or_ends (s : State) :
    (∃ u, Fill s u) ∨ (s.cfg.mode = .direct ∧ ∃ src, s.source.answer s.acc.cap = ([], .endOfData, src)) ∨
      (s.cfg.mode = .buffered ∧ s.sink = []) := by
  cases hm : s.cfg.mode with
  | direct =>
    by_cases hend : (s.source.answer s.acc.cap).1 = [] ∧ (s.source.answer s.acc.cap).2.1 = .endOfData
    · exact .inr (.inl ⟨rfl, _, Prod.ext hend.1 (Prod.ext hend.2 rfl)⟩)
    · exact .inl ⟨_, .source ⟨s.acc.cap, _, _⟩ hm rfl rfl rfl hend⟩
  | buffered =>
    by_cases hs : s.sink = []
    · exact .inr (.inr ⟨rfl, hs⟩)
    · exact .inl ⟨_, .sink hm hs⟩

/-- `Skip`'s loop in `DIRECT` that meets the end of the data: every held bit is consumed, and the skip fails (R87). -/
theorem engineRun_skip_endOfData {cmd : Instr} {owed : Nat} {s : State} {src : Source} (ht : s.turns = [])
    (hm : s.cfg.mode = .direct) (hshort : s.acc.remaining < owed) (hans : s.source.answer 8 = ([], .endOfData, src))
    (fuel : Nat) :
    engineRun (fuel + 1) (skipLoop cmd owed s) =
      .next (raise .unexpectedEndOfData
        (record 8 [] .endOfData { s with acc := s.acc.drop s.acc.remaining, source := src })) := by
  have hcap : (s.acc.drop s.acc.remaining).cap = 8 := by simp [Acc.cap]
  rw [skipLoop_short hshort]
  refine engineRun_busy rfl ht (by simp [request, hcap]) ?_
  rw [if_pos hm]
  simp only [directStep, request, hcap, hans]
  exact engineRun_idle rfl fuel

/-- An uninterrupted skip that was answered `OK` went through its fills to its end. -/
theorem skips_of_answered {cmd : Instr} {fuel owed : Nat} {s t : State} (ht : s.turns = [])
    (h : engineRun fuel (skipLoop cmd owed s) = .next t) (hr : t.responses = s.responses ++ [⟨.ok, 0, []⟩]) :
    ∃ j u, Skips j owed s u ∧ t = finish 0 u := by
  have hdone {fuel owed : Nat} {s : State} (hheld : owed ≤ s.acc.remaining)
      (h : engineRun fuel (skipLoop cmd owed s) = .next t) : ∃ j u, Skips j owed s u ∧ t = finish 0 u := by
    rw [skipLoop_held hheld, engineRun_idle rfl] at h
    cases h
    exact ⟨0, _, .held hheld, rfl⟩
  induction fuel generalizing owed s with
  | zero =>
    by_cases hheld : owed ≤ s.acc.remaining
    · exact hdone hheld h
    · rw [skipLoop_short (by omega)] at h
      cases h
      simp at hr
  | succ fuel ih =>
    by_cases hheld : owed ≤ s.acc.remaining
    · exact hdone hheld h
    · have hshort : s.acc.remaining < owed := by omega
      have hcap : (s.acc.drop s.acc.remaining).cap = 8 := by simp [Acc.cap]
      rcases fill_or_ends { s with acc := s.acc.drop s.acc.remaining } with ⟨u, hf⟩ | ⟨hm, src, hans⟩ | ⟨hm, hs⟩
      · rw [engineRun_skip_fill ht hshort hf] at h
        obtain ⟨j, v, hv, rfl⟩ := ih (by rw [hf.frame]; exact ht) h (by rw [hf.frame]; exact hr)
        exact ⟨j + 1, v, .fill hshort hf hv, rfl⟩
      · rw [hcap] at hans
        rw [engineRun_skip_endOfData ht hm hshort hans] at h
        cases h
        simp at hr
      · rw [skipLoop_short hshort] at h
        have hsilent := unanswered_of_empty_sink (by exact hm) (by exact hs) (by simp) h
        simp [hsilent] at hr

/-! ### The bound on the fills -/

/-- What a skip can still take or choose: the bound of `engineFuel` without its constant. -/
def atHand (s : State) : Nat := s.sink.length + s.source.stream.length + s.source.choices.length

theorem engineFuel_eq (s : State) : engineFuel s = atHand s + 4 := rfl

/-- A source that answers `(0, OK)` for ever and has nothing else left to do (R152). -/
def Stuck (s : State) : Prop :=
  s.cfg.mode = .direct ∧ s.source.ended = false ∧ s.source.choices = [] ∧ s.source.habit = .tryAgain

/-- A fill uses up a byte or a choice, unless the source is stuck. -/
theorem Fill.atHand_lt {s t : State} (h : Fill s t) (hcap : 0 < s.acc.cap) (hstuck : ¬ Stuck s) :
    atHand t < atHand s := by
  cases h with
  | source e hm hmax hbytes hstatus hne =>
    have hlow := Source.answer_lowers (src := s.source) (max := e.max) (by omega) ?_ ?_
    · simp only [atHand, filled]
      omega
    · by_contra hno
      obtain ⟨hgreedy, hchoices⟩ := not_or.mp hno
      have hhabit : s.source.habit = .tryAgain := by
        cases hh : s.source.habit with
        | greedy => exact absurd hh hgreedy
        | tryAgain => rfl
      refine hstuck ⟨hm, ?_, by simpa using hchoices, hhabit⟩
      cases he : s.source.ended with
      | false => rfl
      | true =>
        rw [Source.answer_ended he] at hbytes hstatus
        exact absurd ⟨hbytes.symm, hstatus.symm⟩ hne
    · rw [hbytes, hstatus]
      cases hst : e.status with
      | ok => exact .inr rfl
      | endOfData => exact .inl fun hb => hne ⟨hb, hst⟩
  | sink hm hs =>
    have : 0 < s.sink.length := List.length_pos_of_ne_nil hs
    change (s.sink.drop s.acc.cap).length + s.source.stream.length + s.source.choices.length < atHand s
    rw [List.length_drop, atHand]
    omega

/-- Nothing but held bits can be skipped on a stuck source. -/
theorem Skips.held_of_stuck {j owed : Nat} {s t : State} (h : Skips j owed s t) (hstuck : Stuck s) :
    owed ≤ s.acc.remaining := by
  induction h with
  | held h => exact h
  | @fill j owed s u t h hf hr ih =>
    obtain ⟨hm, he, hc, hh⟩ := hstuck
    cases hf with
    | source e _ _ hbytes =>
      rw [Source.answer_tryAgain he hc hh] at hbytes
      have := ih ⟨hm, by simp [filled, Source.answer_tryAgain he hc hh, he, hc, hh]⟩
      simp only [filled, ← hbytes, Acc.absorb_nil, Acc.drop_remaining] at this
      omega
    | sink hb => cases hm.symm.trans hb

/-- A skip makes at most as many fills as there are bytes and choices at hand. -/
theorem Skips.fills_le {j owed : Nat} {s t : State} (h : Skips j owed s t) : j + atHand t ≤ atHand s := by
  induction h with
  | held h => exact (Nat.zero_add _).le
  | @fill j owed s u t h hf hr ih =>
    have hlt := hf.atHand_lt (by simp [Acc.cap]) fun hstuck =>
      absurd (Skips.held_of_stuck (.fill h hf hr) (s := s) hstuck) (by omega)
    change atHand u < atHand s at hlt
    omega

/-- An uninterrupted skip whose fills lead to its end: its whole effect (R86). -/
theorem exec_skip_of_skips {j : Nat} {n : Word} {s t : State} (hu : Uninterrupted s) (h : Skips j n.toNat s t) :
    exec (.skip n) s = .next { t with responses := s.responses ++ [⟨.ok, 0, []⟩] } := by
  obtain ⟨he, ht⟩ := hu
  have hfuel : j ≤ engineFuel s := by
    have := h.fills_le
    rw [engineFuel_eq]
    omega
  have hrun := engineRun_skips (cmd := .skip n) h ht 0 (engineFuel s - j)
  rw [Nat.sub_add_cancel hfuel, Nat.add_zero, skipLoop_held (Nat.zero_le _), Acc.drop_zero,
    engineRun_idle (s := finish 0 t) rfl] at hrun
  rw [exec_skip he, hrun, finish_of_idle (by rw [h.frame]; exact he), h.frame]

/-! ### Two skips -/

/-- An answered, uninterrupted skip, from the instruction on. -/
theorem skips_of_exec {n : Word} {s t : State} (hu : Uninterrupted s) (h : exec (.skip n) s = .next t)
    (hr : t.responses = s.responses ++ [⟨.ok, 0, []⟩]) : ∃ j u, Skips j n.toNat s u ∧ t = finish 0 u := by
  rw [exec_skip hu.1] at h
  exact skips_of_answered hu.2 h hr

/-- Skipping `a` bits and then `b` is skipping `a + b`, with the same fills (R86). -/
theorem Skips.append {j k a b : Nat} {s t u : State} (h : Skips j a s t) (h' : Skips k b t u) :
    Skips (j + k) (a + b) s u := by
  induction h with
  | @held a s h =>
    rw [Nat.zero_add]
    cases h' with
    | held hb =>
      rw [Acc.drop_remaining] at hb
      have := Skips.held (s := s) (show a + b ≤ s.acc.remaining by omega)
      rwa [← Acc.drop_drop] at this
    | fill hb hf hr =>
      rw [Acc.drop_remaining] at hb hr
      rw [Acc.drop_drop, Acc.drop_remaining, Nat.add_sub_cancel' h] at hf
      refine .fill (by omega) hf ?_
      rwa [show a + b - s.acc.remaining = b - (s.acc.remaining - a) by omega]
  | @fill j a s v t h hf hr ih =>
    rw [Nat.add_right_comm]
    refine .fill (by omega) hf ?_
    rw [show a + b - s.acc.remaining = a - s.acc.remaining + b by omega]
    exact ih h'

/-- Settles O28: the fills of the one skip are those of the first and then those of the second. -/
theorem skipsAddUp : Obligations.SkipsAddUp := by
  intro s t u a b hab hu ha hra hb hrb
  obtain ⟨j, t₀, hj, rfl⟩ := skips_of_exec hu ha hra
  have hut : Uninterrupted (finish 0 t₀) := ⟨rfl, by rw [finish_turns, hj.frame]; exact hu.2⟩
  obtain ⟨k, u₀, hk, rfl⟩ := skips_of_exec hut hb hrb
  have hsum : (a + b).toNat = a.toNat + b.toNat := by rw [BitVec.toNat_add, Nat.mod_eq_of_lt hab]
  have hback : ({ finish 0 t₀ with engine := s.engine, responses := t₀.responses } : State) = t₀ := by
    rw [hj.frame]
    rfl
  have hk' := hk.congr s.engine t₀.responses
  rw [hback] at hk'
  rw [exec_skip_of_skips hu (hsum ▸ hj.append hk'), hu.1]
  rfl

/-! ### The sink is empty -/

/-- Settles O29: the held bits are consumed, and the fill finds nothing. -/
theorem skipBlocksOnEmptySink : Obligations.SkipBlocksOnEmptySink := by
  intro s n ⟨he, ht⟩ hm hshort _ hs
  have hcap : (s.acc.drop s.acc.remaining).cap ≠ 0 := by simp [Acc.cap]
  rw [exec_skip he, skipLoop_short hshort]
  refine (engineRun_blocks rfl (by exact ht) (by exact hcap) (by exact hm) (by exact hs) (_ + 1)).trans ?_
  simp [Acc.drop]

/-! ### The bits are there -/

/-- The bytes a fill can bring without waiting (R42, R51). -/
def supply (s : State) : List Byte :=
  match s.cfg.mode with
  | .direct => s.source.stream
  | .buffered => s.sink

theorem supply_direct {s : State} (hm : s.cfg.mode = .direct) : supply s = s.source.stream := by simp [supply, hm]

theorem supply_buffered {s : State} (hm : s.cfg.mode = .buffered) : supply s = s.sink := by simp [supply, hm]

/-- The engine takes the bytes of the supply in order, and none is lost (R16). -/
theorem EngineFrame.supply_eq {s t : State} (h : EngineFrame s t) : t.taken ++ supply t = s.taken ++ supply s := by
  cases hm : s.cfg.mode with
  | direct => rw [supply_direct hm, supply_direct (by rw [h.cfg, hm]), (h.direct hm).1]
  | buffered => rw [supply_buffered hm, supply_buffered (by rw [h.cfg, hm]), (h.buffered hm).1]

/-- Each fill brings all that fits of the supply: in `DIRECT` the source is greedy. -/
def Forthcoming (s : State) : Prop := s.cfg.mode = .direct → s.source.Greedy

/-- The bits held, and those of the supply. -/
def stock (s : State) : Nat := s.acc.remaining + 8 * (supply s).length

/-- A fill moves bytes from the supply to the accumulator. -/
theorem exists_fill {s : State} (h : Forthcoming s) (hs : supply s ≠ []) (hcap : 0 < s.acc.cap) :
    ∃ u, Fill s u ∧ Forthcoming u ∧ (supply u).length < (supply s).length ∧ stock u = stock s := by
  have hpos := List.length_pos_of_ne_nil hs
  have hne : (supply s).take s.acc.cap ≠ [] := by simp [hs, hcap.ne']
  have hlength (u : State) (hu : supply u = (supply s).drop s.acc.cap)
      (ha : u.acc = s.acc.absorb ((supply s).take s.acc.cap)) :
      (supply u).length < (supply s).length ∧ stock u = stock s := by
    simp only [stock, ha, hu, Acc.absorb_remaining, List.length_take, List.length_drop]
    omega
  cases hm : s.cfg.mode with
  | direct =>
    have hgreedy := h hm
    rw [supply_direct hm] at hne
    have hans := Source.answer_greedy hgreedy s.acc.cap
    refine ⟨filled ⟨s.acc.cap, s.source.stream.take s.acc.cap, .ok⟩ s,
      .source _ hm rfl (by rw [hans]) (by simp [hans, srcStatus, hne]) (by simp), ?_, hlength _ ?_ ?_⟩
    · intro _
      exact ⟨by simp [filled, hans, hne], by simp [filled, hans, hgreedy.2.1], by simp [filled, hans, hgreedy.2.2]⟩
    · rw [supply_direct hm, supply_direct (by exact hm)]
      simp [filled, hans]
    · rw [supply_direct hm]
      rfl
  | buffered =>
    rw [supply_buffered hm] at hs
    refine ⟨sinkFilled s, .sink hm hs, ?_, hlength _ ?_ ?_⟩
    · intro hd
      cases hm.symm.trans hd
    · rw [supply_buffered hm, supply_buffered (by exact hm)]
      rfl
    · rw [supply_buffered hm]
      rfl

/-- A skip of no more bits than are in stock comes to its end, by as many fills as it takes (R86). -/
theorem exists_skips {s : State} {owed : Nat} (h : Forthcoming s) (henough : owed ≤ stock s) :
    ∃ j t, Skips j owed s t ∧ Forthcoming t ∧ stock t + owed = stock s := by
  induction hl : (supply s).length using Nat.strong_induction_on generalizing s owed with
  | _ l ih =>
    by_cases hheld : owed ≤ s.acc.remaining
    · refine ⟨0, _, .held hheld, h, ?_⟩
      change s.acc.remaining - owed + 8 * (supply s).length + owed = s.acc.remaining + 8 * (supply s).length
      omega
    · have hs : supply s ≠ [] := by
        intro h0
        simp only [stock, h0, List.length_nil] at henough
        omega
      obtain ⟨u, hf, hu, hless, hstock⟩ :=
        exists_fill (s := { s with acc := s.acc.drop s.acc.remaining }) h hs (by simp [Acc.cap])
      have hstock' : stock u = stock s - s.acc.remaining := by
        rw [hstock]
        change s.acc.remaining - s.acc.remaining + 8 * (supply s).length = s.acc.remaining + 8 * (supply s).length - _
        omega
      have hle : s.acc.remaining ≤ stock s := Nat.le_add_right _ _
      obtain ⟨j, t, hr, ht, hrest⟩ := ih _ (hl ▸ hless) hu (owed := owed - s.acc.remaining) (by omega) rfl
      exact ⟨j + 1, t, .fill (by omega) hf hr, ht, by omega⟩

/-- An uninterrupted skip of no more bits than are in stock: it answers `OK`, moves the cursor by its count, and takes bytes
from the head of the supply only (R86, R104). -/
theorem exec_skip_completes {s : State} {n : Word} (hinv : BlockInv s) (hu : Uninterrupted s) (h : Forthcoming s)
    (henough : n.toNat ≤ stock s) :
    ∃ t k, exec (.skip n) s = .next t ∧ t.cursor = s.cursor + n.toNat ∧ supply t = (supply s).drop k ∧
      t.taken = s.taken ++ (supply s).take k ∧
      t = { s with acc := t.acc, sink := t.sink, source := t.source, exchanges := t.exchanges,
                   responses := s.responses ++ [⟨.ok, 0, []⟩] } := by
  obtain ⟨j, t, hskips, -, hstock⟩ := exists_skips h henough
  have hexec := exec_skip_of_skips hu hskips
  have hframe := exec_frame rfl hexec
  obtain ⟨more, hmore⟩ := hframe.taken
  have hsupply := hframe.supply_eq
  rw [hmore, List.append_assoc, List.append_cancel_left_eq] at hsupply
  refine ⟨_, more.length, hexec, ?_, ?_, ?_, ?_⟩
  · have hheld : s.acc.remaining ≤ 8 * s.taken.length := hinv.stream.1
    have hlength := congrArg List.length hsupply
    change (_ ++ supply t).length = _ at hlength
    simp only [stock, List.length_append] at hstock hlength
    simp only [State.cursor, hmore, List.length_append]
    omega
  · rw [← hsupply, List.drop_left]
  · rw [← hsupply, List.take_left, hmore]
  · rw [hskips.frame]

/-- Settles O25: in `BUFFERED` the supply is the sink. -/
theorem skipCompletesFromTheSink : Obligations.SkipCompletesFromTheSink := by
  intro s n hinv hu hm henough
  obtain ⟨t, k, hexec, hcursor, hsupply, htaken, ht⟩ := exec_skip_completes hinv hu
    (fun hd => by cases hm.symm.trans hd) (by rwa [stock, supply_buffered hm])
  have hframe := exec_frame rfl hexec
  rw [supply_buffered hm, supply_buffered (by rw [hframe.cfg, hm])] at hsupply
  rw [supply_buffered hm] at htaken
  rw [(hframe.buffered hm).2.1] at ht
  exact ⟨t, k, hexec, hcursor, hsupply, htaken, ht⟩

/-- Settles O26: in `DIRECT` the supply is what the source has still to deliver. -/
theorem skipCompletesFromTheSource : Obligations.SkipCompletesFromTheSource := by
  intro s n hinv hu hm hgreedy henough
  obtain ⟨t, k, hexec, hcursor, hsupply, htaken, ht⟩ := exec_skip_completes hinv hu (fun _ => hgreedy)
    (by rwa [stock, supply_direct hm])
  have hframe := exec_frame rfl hexec
  rw [supply_direct hm, supply_direct (by rw [hframe.cfg, hm])] at hsupply
  rw [supply_direct hm] at htaken
  rw [(hframe.direct hm).2] at ht
  exact ⟨t, k, hexec, hcursor, hsupply, htaken, ht⟩

/-! ### The data run out -/

theorem Acc.eq_empty {a : Acc} (h : a.Wf) (hr : a.remaining = 0) : a = { buffer := 0, remaining := 0 } := by
  have := Acc.drop_all h
  rwa [hr, Acc.drop_zero] at this

/-- An uninterrupted skip in `DIRECT` that goes through its first `a` bits and meets the end of the data while it owes more
than are held (R87). -/
theorem exec_skip_endOfData {j a : Nat} {n : Word} {s t : State} {src : Source} (hu : Uninterrupted s)
    (h : Skips j a s t) (hm : t.cfg.mode = .direct) (hshort : a + t.acc.remaining < n.toNat)
    (hans : t.source.answer 8 = ([], .endOfData, src)) :
    exec (.skip n) s = .next (raise .unexpectedEndOfData
      (record 8 [] .endOfData { t with acc := t.acc.drop t.acc.remaining, source := src })) := by
  have hbound : j + 1 ≤ engineFuel s := by
    have := h.fills_le
    rw [engineFuel_eq]
    omega
  have hrun := engineRun_skips (cmd := .skip n) h hu.2 (n.toNat - a) (engineFuel s - (j + 1) + 1)
  rw [Nat.add_right_comm, Nat.add_assoc, Nat.sub_add_cancel hbound, Nat.add_sub_cancel' (by omega),
    engineRun_skip_endOfData (by rw [h.frame]; exact hu.2) hm (by omega) hans] at hrun
  rw [exec_skip hu.1, hrun]

/-- Settles O27: the skip goes through all that is in stock, and the fill after that meets the end of the data. -/
theorem skipRunsOutOfData : Obligations.SkipRunsOutOfData := by
  intro s n hinv hu hm hgreedy hshort
  have hstock : stock s < n.toNat := by rwa [stock, supply_direct hm]
  obtain ⟨j, t, hskips, hforth, hrest⟩ := exists_skips (s := s) (fun _ => hgreedy) (Nat.le_refl (stock s))
  have hmt : t.cfg.mode = .direct := by rw [hskips.frame]; exact hm
  obtain ⟨hheld, hleft⟩ : t.acc.remaining = 0 ∧ t.source.stream = [] := by
    rw [stock, supply_direct hmt] at hrest
    exact ⟨by omega, List.eq_nil_of_length_eq_zero (by omega)⟩
  have hans : t.source.answer 8 = ([], .endOfData, { t.source with stream := [], ended := true }) := by
    rw [Source.answer_greedy (hforth hmt), hleft]
    rfl
  have hexec := exec_skip_endOfData hu hskips hmt (show stock s + t.acc.remaining < n.toNat by omega) hans
  refine ⟨_, hexec, by rw [hskips.frame]; rfl, rfl, ?_, rfl, ?_⟩
  · exact Acc.eq_empty (blockInv_exec hinv hexec).accumulator (by simp)
  · have htaken := ((exec_frame rfl hexec).direct hm).1
    exact (List.append_nil _).symm.trans htaken

end Sys2Proof.Machine
end

section
/-! `ALIGN`, `IS_ALIGNED` and `READ_BYTES` (spec/41_stream_reader.md R105 to R107, R109): the commands that their local
start answers, the byte read's drain and its one pass-through request, and the stream's bytes it carries. -/

namespace Sys2Proof.Machine

/-! ### ALIGN and IS_ALIGNED -/

/-- A response given on an idle engine is added, and nothing else changes. -/
theorem respond_of_idle {s : State} (h : s.engine = .idle) (r : Response) :
    respond r s = { s with responses := s.responses ++ [r] } := by
  rw [respond, ← h]

/-- A command on an idle engine that its local start answers has no other effect: it makes no `SrcRead`. -/
theorem exec_of_start_idle {i : Instr} {s : State} (hp : i.port = .command) (hw : i.wellFormed s.cfg.mode = true)
    (he : s.engine = .idle) (h : (startOf i s).engine = .idle) : exec i s = .next (startOf i s) := by
  rw [exec_command hp hw, onCommandPort_idle he, runOn_idle h]

/-- Settles O30: the word is `ALIGN`'s encoding, and the local start gives the answer. -/
theorem alignDiscardsThePartialByte : Obligations.AlignDiscardsThePartialByte := by
  refine ⟨fun m => decodeCommand_eq_instr_iff.mpr ⟨rfl, rfl, by decide⟩, fun s he => ?_⟩
  rw [exec_of_start_idle rfl rfl he rfl, startOf, alignStart, finish_of_idle (by exact he), Acc.align, Acc.drop]

/-- Settles O31: the word is `IS_ALIGNED`'s encoding, and the local start gives the answer. -/
theorem isAlignedReadsTheDerivedFlag : Obligations.IsAlignedReadsTheDerivedFlag := by
  refine ⟨fun m => decodeCommand_eq_instr_iff.mpr ⟨rfl, rfl, by decide⟩, fun s he => ?_⟩
  rw [exec_of_start_idle rfl rfl he rfl, startOf, isAlignedStart, finish_of_idle he]
  simp only [Acc.aligned_iff]

/-! ### The byte read's drain -/

/-- The first `d` whole bytes held, past the partial one (R107). -/
def Acc.heldBytes (a : Acc) (d : Nat) : List Byte :=
  (List.range d).map fun j => (a.buffer <<< (a.remaining % 8 + 8 * j)).extractLsb' 56 8

@[simp] theorem Acc.heldBytes_length (a : Acc) (d : Nat) : (a.heldBytes d).length = d := by
  simp [Acc.heldBytes]

theorem Acc.align_remaining (a : Acc) : a.align.remaining = a.remaining - a.remaining % 8 := rfl

/-- Discarding the partial byte leaves the whole ones (R105). -/
theorem Acc.align_bytes (a : Acc) : a.align.remaining / 8 = a.remaining / 8 := by
  rw [Acc.align_remaining]
  omega

/-- The drain of the aligned accumulator gives held bytes, and shifts them and the partial byte out (R107). -/
theorem Acc.align_drain (a : Acc) (d : Nat) :
    a.align.drain d = (a.heldBytes d, a.drop (a.remaining % 8 + 8 * d)) := by
  rw [Acc.drain_eq, Acc.align, Acc.drop_drop]
  simp only [Acc.heldBytes, Acc.drop_buffer, BitVec.shiftLeft_add]

/-- A byte read of no more bytes than are held answers with them (R107). -/
theorem readBytesStart_held {n : Word} {s : State} (h : n.toNat ≤ s.acc.remaining / 8) :
    readBytesStart n s = respond ⟨.ok, 0, s.acc.heldBytes n.toNat⟩
      { s with acc := s.acc.drop (s.acc.remaining % 8 + 8 * n.toNat) } := by
  simp [readBytesStart, Acc.align_bytes, Nat.min_eq_right h, Acc.align_drain]

/-- A byte read of more bytes than are held drains them all, and goes on to its pass-through (R107). -/
theorem readBytesStart_short {n : Word} {s : State} (h : s.acc.remaining / 8 < n.toNat) :
    readBytesStart n s = { s with
      acc := s.acc.drop s.acc.remaining
      engine := .busy (.readBytes n)
        (.passing (s.acc.heldBytes (s.acc.remaining / 8)) (n.toNat - s.acc.remaining / 8)) } := by
  have hall : s.acc.remaining % 8 + 8 * (s.acc.remaining / 8) = s.acc.remaining := Nat.mod_add_div _ _
  have hmore : n.toNat - s.acc.remaining / 8 ≠ 0 := by omega
  simp [readBytesStart, Acc.align_bytes, Nat.min_eq_left h.le, Acc.align_drain, hall, hmore]

/-- Settles O32: the local start gives the answer. -/
theorem readBytesDrainsHeldBytes : Obligations.ReadBytesDrainsHeldBytes := by
  intro s n he hheld
  have hstart := readBytesStart_held hheld
  rw [exec_of_start_idle rfl rfl he (by rw [startOf, hstart, respond_engine]), startOf, hstart,
    respond_of_idle (by exact he), Acc.heldBytes, Acc.drop]

/-! ### The byte read's pass-through -/

/-- A byte read of more bytes than are held is the run from its pass-through (R107). -/
theorem exec_readBytes_short {n : Word} {s : State} (he : s.engine = .idle) (h : s.acc.remaining / 8 < n.toNat) :
    exec (.readBytes n) s = engineRun (engineFuel s) { s with
      acc := s.acc.drop s.acc.remaining
      engine := .busy (.readBytes n)
        (.passing (s.acc.heldBytes (s.acc.remaining / 8)) (n.toNat - s.acc.remaining / 8)) } := by
  rw [← readBytesStart_short h, ← (readBytesStart_local n s).engineFuel_eq]
  exact onCommandPort_idle he _

/-- The answer to the pass-through ends the byte read, with the source's own status (R107). -/
theorem deliver_passing (cmd : Instr) (out : List Byte) (want : Nat) (bytes : List Byte) (st : SrcStatus) (s : State) :
    deliver cmd (.passing out want) bytes st s = respond ⟨st.status, 0, out ++ bytes⟩ s := rfl

theorem SrcStatus.status_eq (st : SrcStatus) : st.status = if st = .ok then .ok else .endOfData := by
  cases st <;> rfl

/-- Settles O33: the pass-through is one request to the source. -/
theorem readBytesPassesThroughToTheSource : Obligations.ReadBytesPassesThroughToTheSource := by
  intro s n bytes st src ⟨he, ht⟩ hm hshort hans
  rw [exec_readBytes_short he hshort, ← SrcStatus.status_eq]
  refine engineRun_busy (fuel := _ + 3) rfl ht (Nat.sub_ne_zero_of_lt hshort) ?_
  rw [if_pos hm]
  simp only [directStep, request, hans, deliver_passing]
  rw [engineRun_idle rfl]
  simp [respond, record, Acc.drop, Acc.heldBytes, he]

/-- Settles O34: the pass-through is one pull. -/
theorem readBytesPassesThroughToTheSink : Obligations.ReadBytesPassesThroughToTheSink := by
  intro s n ⟨he, ht⟩ hm hshort hs
  rw [exec_readBytes_short he hshort]
  refine engineRun_busy (fuel := _ + 3) rfl ht (Nat.sub_ne_zero_of_lt hshort) ?_
  rw [if_neg (by simp [hm]), pullStep_nonempty (by exact hs), deliver_passing, engineRun_idle rfl]
  simp [respond, pulled, record, request, SrcStatus.status, Acc.drop, Acc.heldBytes, he]

/-- Settles O35: the pass-through's pull finds nothing. -/
theorem readBytesBlocksOnEmptySink : Obligations.ReadBytesBlocksOnEmptySink := by
  intro s n ⟨he, ht⟩ hm hshort hs
  rw [exec_readBytes_short he hshort]
  refine (engineRun_blocks rfl (by exact ht) (by exact Nat.sub_ne_zero_of_lt hshort) (by exact hm) (by exact hs)
    (_ + 1)).trans ?_
  simp [Acc.drop, Acc.heldBytes]

/-! ### The stream's bytes -/

/-- The next byte held is the stream's at the cursor, where the accumulator is aligned (R45, R84). -/
theorem Acc.top_streamByte {a : Acc} {bytes : List Byte} (h : a.Holds bytes) (hal : a.remaining % 8 = 0)
    (hr : 8 ≤ a.remaining) (hlt : bytes.length - a.remaining / 8 < bytes.length) :
    (a.top 8).setWidth 8 = bytes[bytes.length - a.remaining / 8] := by
  apply BitVec.eq_of_getLsbD_eq
  intro i hi
  have hbound := h.1
  have hpos : 8 * bytes.length - a.remaining + (8 - 1 - i) = 8 * (bytes.length - a.remaining / 8) + (7 - i) := by omega
  have hbyte : (8 * (bytes.length - a.remaining / 8) + (7 - i)) / 8 = bytes.length - a.remaining / 8 := by omega
  have hbit : 7 - (8 * (bytes.length - a.remaining / 8) + (7 - i)) % 8 = i := by omega
  rw [BitVec.getLsbD_setWidth, Acc.top_getLsbD a (by decide), h.2 _ (by omega), hpos, streamBit, hbyte, hbit,
    List.getD_eq_getElem _ _ hlt]
  simp [hi]

/-- The drain of an aligned accumulator gives the stream's bytes from the cursor (R107). -/
theorem Acc.drain_streamBytes {bytes : List Byte} (d : Nat) {a : Acc} (h : a.Holds bytes) (hal : a.remaining % 8 = 0)
    (hd : d ≤ a.remaining / 8) : (a.drain d).1 = (bytes.drop (bytes.length - a.remaining / 8)).take d := by
  induction d generalizing a with
  | zero => rfl
  | succ d ih =>
    have hbound := h.1
    have hlt : bytes.length - a.remaining / 8 < bytes.length := by omega
    have hnext : bytes.length - (a.drop 8).remaining / 8 = bytes.length - a.remaining / 8 + 1 := by
      rw [Acc.drop_remaining]
      omega
    have hrest := ih (Acc.drop_holds h (k := 8) (by omega)) (by rw [Acc.drop_remaining]; omega)
      (by rw [Acc.drop_remaining]; omega)
    rw [Acc.drain, hrest, hnext, List.drop_eq_getElem_cons hlt, List.take_succ_cons,
      Acc.top_streamByte h hal (by omega) hlt]

/-- The whole bytes held are the stream's from the first byte boundary at or after the cursor (R105, R107). -/
theorem Acc.heldBytes_eq {a : Acc} {bytes : List Byte} (h : a.Holds bytes) {d : Nat} (hd : d ≤ a.remaining / 8) :
    a.heldBytes d = (bytes.drop (bytes.length - a.remaining / 8)).take d := by
  have hdrain := Acc.drain_streamBytes d (Acc.drop_holds h (Nat.mod_le _ 8))
    (by rw [Acc.drop_remaining]; omega) (by rw [← Acc.align, Acc.align_bytes]; exact hd)
  rwa [← Acc.align, Acc.align_bytes, Acc.align_drain] at hdrain

/-- The data are the taken stream's bytes from position `c`, and the cursor stands just past them (R109). -/
structure CarriesFrom (c : Nat) (data : List Byte) (t : State) : Prop where
  stream : data = (t.taken.drop c).take data.length
  cursor : t.cursor = 8 * (c + data.length)

/-- The first byte boundary at or after the cursor is that of the whole bytes held (R37, R109). -/
theorem HoldsStream.boundary {s : State} (h : HoldsStream s) :
    (s.cursor + 7) / 8 = s.taken.length - s.acc.remaining / 8 := by
  have hbound := h.1
  rw [State.cursor]
  omega

/-- Discarding the partial byte and draining `d` held bytes carries them from the byte boundary (R107, R109). -/
theorem carriesFrom_heldBytes {s t : State} (h : HoldsStream s) {d : Nat} (hd : d ≤ s.acc.remaining / 8)
    (ht : t.taken = s.taken) (ha : t.acc.remaining = s.acc.remaining - (s.acc.remaining % 8 + 8 * d)) :
    CarriesFrom ((s.cursor + 7) / 8) (s.acc.heldBytes d) t := by
  have hbound := h.1
  refine ⟨?_, ?_⟩
  · rw [Acc.heldBytes_length, h.boundary, ht]
    exact Acc.heldBytes_eq h hd
  · rw [Acc.heldBytes_length, h.boundary, State.cursor, ht, ha]
    omega

/-- Where nothing is held, bytes that are taken and given on directly carry the stream further (R107). -/
theorem CarriesFrom.append {c : Nat} {out bytes : List Byte} {u v : State} (h : CarriesFrom c out u)
    (hu : u.acc.remaining = 0) (hv : v.acc.remaining = 0) (ht : v.taken = u.taken ++ bytes) :
    CarriesFrom c (out ++ bytes) v := by
  have hcursor := h.cursor
  rw [State.cursor, hu] at hcursor
  have hout : out = u.taken.drop c := by
    rw [h.stream, List.take_of_length_le (by rw [List.length_drop]; omega)]
  have hdrop : v.taken.drop c = out ++ bytes := by
    rw [ht, List.drop_append_of_le_length (by omega), ← hout]
  refine ⟨by rw [hdrop, List.take_length], ?_⟩
  rw [State.cursor, hv, ht, List.length_append, List.length_append]
  omega

/-- Where a byte read of `n` bytes that started in `s` stands in `t`: at its pass-through with what it has drained, or
answered. -/
inductive ByteRead (n : Word) (s t : State) : Prop where
  | passing (out : List Byte) (want : Nat)
      (he : t.engine = .busy (.readBytes n) (.passing out want) ∨ t.engine = .waiting (.readBytes n) (.passing out want))
      (hr : t.responses = s.responses) (hc : CarriesFrom ((s.cursor + 7) / 8) out t)
  | answered (r : Response) (he : t.engine = .idle) (hr : t.responses = s.responses ++ [r])
      (hc : CarriesFrom ((s.cursor + 7) / 8) r.data t) (hl : r.data.length ≤ n.toNat)

/-- The start of a byte read (R107): it ends with held bytes, or drains them all and goes on. -/
theorem byteRead_readBytesStart {n : Word} {s : State} (h : HoldsStream s) : ByteRead n s (readBytesStart n s) := by
  by_cases hheld : n.toNat ≤ s.acc.remaining / 8
  · rw [readBytesStart_held hheld]
    exact .answered _ rfl rfl (carriesFrom_heldBytes h hheld rfl rfl) (Acc.heldBytes_length _ _).le
  · rw [readBytesStart_short (by omega)]
    exact .passing _ _ (.inl rfl) rfl
      (carriesFrom_heldBytes h (Nat.le_refl _) rfl (by rw [Acc.drop_remaining, Nat.mod_add_div]))

/-- At its pass-through a byte read holds nothing, and wants the rest of its count (R107). -/
theorem progressWf_passing {a : Acc} {n : Word} {out : List Byte} {want : Nat}
    (h : ProgressWf a (.readBytes n) (.passing out want) = true) :
    out.length + want = n.toNat ∧ a.remaining = 0 := by
  simp only [ProgressWf, Bool.and_eq_true, decide_eq_true_eq] at h
  exact ⟨h.1.2, h.2⟩

/-- The answer to the pass-through (R107), `u` being the state that asked and `v` the one with the answer taken. -/
theorem byteRead_deliver {n : Word} {out bytes : List Byte} {want : Nat} {st : SrcStatus} {s u v : State}
    (hu : BlockInv u) (he : u.engine = .busy (.readBytes n) (.passing out want)) (hl : bytes.length ≤ want)
    (hv : v.acc = u.acc) (ht : v.taken = u.taken ++ bytes) (hr : v.responses = s.responses)
    (hc : CarriesFrom ((s.cursor + 7) / 8) out u) :
    ByteRead n s (deliver (.readBytes n) (.passing out want) bytes st v) := by
  obtain ⟨hcount, hempty⟩ := progressWf_passing (hu.progressWf_of_busy he)
  rw [deliver_passing]
  refine .answered ⟨st.status, 0, out ++ bytes⟩ rfl (by rw [respond_responses, hr])
    (hc.append hempty (by rw [respond_acc, hv, hempty]) ht) ?_
  rw [List.length_append]
  omega

/-- Every atomic step keeps a byte read where `ByteRead` says. -/
theorem byteRead_engineStep {n : Word} {s u t : State} (hu : BlockInv u) (h : ByteRead n s u)
    (hs : engineStep u = .next t) : ByteRead n s t := by
  cases h with
  | answered r he hr hc hl =>
    rw [(engineStep_good hs).1 he]
    exact .answered r he hr hc hl
  | passing out want he hr hc =>
    cases engineStep_move hs with
    | rests => exact .passing out want he hr hc
    | takes c p hw =>
      obtain ⟨rfl, rfl⟩ := command_unique he (.inr hw)
      exact .passing out want (.inl rfl) hr ⟨hc.stream, hc.cursor⟩
    | blocks c p hb =>
      obtain ⟨rfl, rfl⟩ := command_unique he (.inl hb)
      exact .passing out want (.inr rfl) hr ⟨hc.stream, hc.cursor⟩
    | asks c p hb =>
      obtain ⟨rfl, rfl⟩ := command_unique he (.inl hb)
      exact byteRead_deliver hu hb (Source.answer_length_le _ _) rfl (taken_record _ _ _ _) hr hc
    | pulls c p hb =>
      obtain ⟨rfl, rfl⟩ := command_unique he (.inl hb)
      exact byteRead_deliver hu hb (List.length_take_le _ _) rfl (taken_record _ _ _ _) hr hc

/-- Where a byte read stands after its meaning has run. -/
theorem byteRead_exec {n : Word} {s t : State} (hs : BlockInv s) (h : exec (.readBytes n) s = .next t) :
    ByteRead n s t :=
  (engineRun_induction (P := fun u => BlockInv u ∧ ByteRead n s u)
    (fun _ _ hu hstep => ⟨blockInv_engineStep hu.1 hstep, byteRead_engineStep hu.1 hu.2 hstep⟩) _
    ⟨blockInv_startOf rfl hs, byteRead_readBytesStart hs.stream⟩ (exec_next rfl h).2).2

/-- Settles O36: a byte read that has given a response is past its pass-through, and carries what it drained and what the
pass-through brought. -/
theorem readBytesLandsOnTheByteBoundary : Obligations.ReadBytesLandsOnTheByteBoundary := by
  intro s t n r hs h hresp
  cases byteRead_exec hs h with
  | passing out want he hr => simp [hr] at hresp
  | answered q he hr hc hl =>
    obtain rfl : q = r := by simpa [hr] using hresp
    exact ⟨hc.stream, hl, hc.cursor⟩

end Sys2Proof.Machine
end

section
/-! The sink and the wake flag of `BUFFERED` (spec/42_buffered.md): what a `WRITE` does, when a command in progress has
no step, how a woken one completes, and which statuses a response can carry (spec/60_exceptions.md). -/

namespace Sys2Proof.Machine

/-! ### WRITE -/

/-- Settles O38: with no turn listed, a `WRITE` that fits posts right after its append. -/
theorem writeAppendsThenPosts : Obligations.WriteAppendsThenPosts := by
  intro s data hm hp ht hfits
  rw [exec_write_ready hm hp, if_pos ((sinkFits_iff data s).mpr hfits), if_pos (by simpa using ht)]
  rfl

/-- An uninterrupted `WRITE` that was accepted: its whole effect (R115). -/
theorem execWrite_uninterrupted {data : List Byte} {s t : State} (ht : s.turns = [])
    (h : exec (.write data) s = .next t) : t = { s with sink := s.sink ++ data, wake := true } := by
  obtain ⟨-, -, -, hnext⟩ := execWrite_next h
  rwa [if_pos (by simpa using ht)] at hnext

/-- Settles O40: the second `WRITE` appends behind the first and finds the one-slot flag set already. -/
theorem writesCoalesce : Obligations.WritesCoalesce := by
  intro s t u a b ht ha hb
  obtain rfl := execWrite_uninterrupted ht ha
  obtain rfl := execWrite_uninterrupted (by exact ht) hb
  rw [← List.append_assoc]

/-! ### The sink is empty -/

/-- Settles O19: the fill's pull finds nothing. -/
theorem widthCommandBlocksOnEmptySink : Obligations.WidthCommandBlocksOnEmptySink := by
  intro s n w cmd hf ⟨he, ht⟩ hm ha hshort hs
  rw [exec_width_admitted hf he ha, peekLoop_short (count_of_widthForms hf ▸ hshort)]
  exact engineRun_blocks rfl (by exact ht) (by exact ha.cap_ne_zero hf hshort) (by exact hm) (by exact hs) (_ + 1)

/-! ### The statuses on the response port -/

/-- What holds of every response on the response port of a block in a mode (R118, R119, R136). -/
structure Surfaced (m : Mode) (r : Response) : Prop where
  insufficient : r.status ≠ .insufficientData
  buffered : m = .buffered → r.status ≠ .endOfData ∧ r.status ≠ .unexpectedEndOfData
  value : r.status ≠ .ok → r.value = 0

theorem GoodAnswer.surfaced {m : Mode} {r : Response} (h : GoodAnswer m r) : Surfaced m r :=
  ⟨h.insufficient, fun hm => by simp [h.buffered hm], h.value⟩

theorem ContractError.surfaced {i : Instr} {s : State} {r : Response} (h : ContractError i s r) (m : Mode) :
    Surfaced m r := by
  rcases h with ⟨hst, hv, -⟩ | ⟨hst, hv, -⟩ <;> exact ⟨by simp [hst], by simp [hst], fun _ => hv⟩

/-- A step gives no response, or one that may stand on the response port (R118, R119, R136). -/
theorem step_surfaces {s t : State} (h : step s = .next t) :
    t.responses = s.responses ∨ ∃ r, t.responses = s.responses ++ [r] ∧ Surfaced s.cfg.mode r := by
  cases step_move h with
  | noCommand | posts | noWrite | writes | appends | resets => exact .inl rfl
  | accepts w rest i _ _ _ _ _ hp hr =>
    rcases exec_answer hp hr with h0 | ⟨r, hadd, hgood | herror⟩
    · exact .inl h0
    · exact .inr ⟨r, hadd, hgood.surfaced⟩
    · exact .inr ⟨r, hadd, herror.surfaced _⟩
  | resumes u _ _ _ hu hr =>
    obtain ⟨hrest, hrun⟩ := runOn_good hr
    rw [(engineStep_frame hu).cfg] at hrun
    rcases (engineStep_good hu).2 with h0 | ⟨r, hadd, hgood, hidle⟩
    · rcases hrun with h1 | ⟨r, hadd, hgood, -⟩
      · exact .inl (h1.trans h0)
      · exact .inr ⟨r, hadd.trans (by rw [h0]; rfl), hgood.surfaced⟩
    · rw [hrest hidle]
      exact .inr ⟨r, hadd, hgood.surfaced⟩

/-- Every response that a step adds may stand on the response port. -/
theorem surfaced_of_mem {s t : State} {rs : List Response} {r : Response} (h : step s = .next t)
    (hrs : t.responses = s.responses ++ rs) (hr : r ∈ rs) : Surfaced s.cfg.mode r := by
  rcases step_surfaces h with h0 | ⟨q, hq, hs⟩
  · obtain rfl : rs = [] := by simpa [h0] using hrs
    cases hr
  · obtain rfl : rs = [q] := by simpa [hq, eq_comm] using hrs
    rwa [List.mem_singleton.mp hr]

/-- Settles O55, by what a step can answer. -/
theorem insufficientDataIsNeverSurfaced : Obligations.InsufficientDataIsNeverSurfaced :=
  fun _ _ _ _ h hrs hr => (surfaced_of_mem h hrs hr).insufficient

/-- Settles O56, by what a step can answer. -/
theorem statusesOnTheResponsePort : Obligations.StatusesOnTheResponsePort := by
  intro s t rs r _ h hrs hr
  have hs := surfaced_of_mem h hrs hr
  exact ⟨hs.buffered, hs.value⟩

/-! ### When a command in progress has no step -/

/-- How far the engine has come: every atomic step completes a `SrcRead`, takes the token or begins to wait, and a token
once taken outweighs the wait that it ends. -/
def headway (s : State) : Nat :=
  s.exchanges.length + (if s.wake then 0 else 2) +
    match s.engine with
    | .waiting _ _ => 1
    | .busy _ _ => 0
    | .idle => 0

/-- A command's local computation, begun by an engine that is not waiting, leaves the headway as it is. -/
theorem LocalStep.headway_eq {cmd : Instr} {s t : State} (h : LocalStep cmd s t)
    (hs : ∀ c p, s.engine ≠ .waiting c p) : headway t = headway s := by
  have hplace : headway s = s.exchanges.length + (if s.wake then 0 else 2) := by
    cases he : s.engine with
    | waiting c p => exact absurd he (hs c p)
    | idle | busy => simp [headway, he]
  rw [hplace]
  cases h <;> rfl

/-- R123: every atomic step of an engine that has one makes headway. -/
theorem engineStep_headway_lt {s t : State} (hr : engineReady s = true) (h : engineStep s = .next t) :
    headway s < headway t := by
  cases engineStep_move h with
  | rests hno => simp [hr] at hno
  | takes cmd p he hw => simp [headway, he, hw, wakeTake]
  | blocks cmd p he => simp [headway, he]
  | asks cmd p he =>
    rw [directStep, (deliver_local cmd p _ _ _).headway_eq (by simp [record, he])]
    simp [headway, record, he]
  | pulls cmd p he =>
    rw [(deliver_local cmd p _ _ _).headway_eq (by simp [pulled, record, he])]
    simp [headway, pulled, record, he]

theorem engineStep_headway_le {s t : State} (h : engineStep s = .next t) : headway s ≤ headway t := by
  cases hr : engineReady s with
  | true => exact (engineStep_headway_lt hr h).le
  | false =>
    cases engineStep_move h with
    | rests => exact le_rfl
    | takes _ _ he hw => simp [engineReady, he, hw] at hr
    | asks _ _ he | blocks _ _ he | pulls _ _ he => simp [engineReady, he] at hr

theorem runOn_headway_le {s t : State} (h : runOn s = .next t) : headway s ≤ headway t :=
  runOn_rel (R := fun a b => headway a ≤ headway b) (fun _ => le_rfl) (fun _ _ _ => le_trans)
    (fun _ _ => engineStep_headway_le) h

/-- A command in progress has a step unless it waits without a token (R123). -/
theorem engineReady_or_blocked {s : State} (h : s.engine ≠ .idle) : engineReady s = true ∨ EngineBlocked s := by
  cases he : s.engine with
  | idle => exact absurd he h
  | busy cmd p => exact .inl (by simp [engineReady, he])
  | waiting cmd p =>
    cases hw : s.wake with
    | true => exact .inl (by simp [engineReady, he, hw])
    | false => exact .inr ⟨cmd, p, he, hw⟩

/-- A blocked engine's turn leaves the state as it is (R123). -/
theorem EngineBlocked.engineTurn_rests {s : State} (h : EngineBlocked s) : engineTurn s = .next s := by
  obtain ⟨cmd, p, he, hw⟩ := h
  have hstep : engineStep s = .next s := by simp [engineStep, he, hw]
  rw [engineTurn_of_not_idle (by simp [he]), hstep]
  exact engineRun_stops (by simp [engineReady, he, hw]) _

/-- Settles O43: the turn of an engine that has a step makes headway, so it does not end where it began. -/
theorem engineHasNoStepExactlyWhenBlocked : Obligations.EngineHasNoStepExactlyWhenBlocked := by
  intro s _ he
  refine ⟨fun h => ?_, EngineBlocked.engineTurn_rests⟩
  rcases engineReady_or_blocked he with hr | hb
  · rw [engineTurn_of_not_idle he] at h
    split at h
    · rename_i u hu
      exact absurd (runOn_headway_le h) (engineStep_headway_lt hr hu).not_ge
    · cases h
    · cases h
  · exact hb

/-! ### A woken command -/

/-- The state in which a waiting command has taken its token, its progress kept (R54, R113). -/
def woken (cmd : Instr) (p : Progress) (s : State) : State := { wakeTake s with engine := .busy cmd p }

theorem engineStep_woken {cmd : Instr} {p : Progress} {s : State} (he : s.engine = .waiting cmd p)
    (hw : s.wake = true) : engineStep s = .next (woken cmd p s) := by
  simp [engineStep, he, hw, woken]

/-- With no turn listed, the step of a waiting command that has its token is the take and the run from there (R113). -/
theorem step_woken {cmd : Instr} {p : Progress} {s : State} (he : s.engine = .waiting cmd p) (hw : s.wake = true)
    (ht : s.turns = []) : step s = runOn (woken cmd p s) := by
  have hturn : nextTurn s = .engine := by simp [nextTurn, ht, consumerCanMove, engineReady, he, hw]
  have hpop : ({ s with turns := s.turns.tail } : State) = s := by rw [ht, List.tail_nil, ← ht]
  rw [stepResumesTheCommandInProgress s hturn (by simp [he]), hpop, engineStep_woken he hw]

/-- A waiting command waits in `BUFFERED`, and its progress fits the accumulator (R27). -/
theorem BlockInv.of_waiting {cmd : Instr} {p : Progress} {s : State} (h : BlockInv s)
    (he : s.engine = .waiting cmd p) : s.cfg.mode = .buffered ∧ ProgressWf s.acc cmd p = true := by
  have hw := h.engine
  rw [EngineWf, he] at hw
  simpa using hw

/-- R119: a command of `BUFFERED` that ends after a `SrcRead` answers `OK`. -/
theorem answers_ok_of_runOn {u t : State} (hm : u.cfg.mode = .buffered) (he : u.engine ≠ .idle)
    (h : runOn u = .next t) (hidle : t.engine = .idle) : ∃ v d, t.responses = u.responses ++ [⟨.ok, v, d⟩] := by
  rcases (runOn_good h).2 with h0 | ⟨r, hr, hgood, -⟩
  · have howing := (runOn_answers h).owing
    simp [owing, h0, he, hidle] at howing
  · rw [← hgood.buffered hm]
    exact ⟨r.value, r.data, hr⟩

/-- A peek or read that fills is admitted: a fill of what fits is enough for it (R90, R93). -/
theorem progressWf_filling_limit {a : Acc} {cmd : Instr} {got : Nat} (h : ProgressWf a cmd (.filling got) = true) :
    count cmd ≤ 56 ∨ a.remaining % 8 = 0 := by
  simp only [ProgressWf] at h
  split at h
  · simp only [Bool.and_eq_true, Bool.not_eq_true', alignmentOverflow_false_iff] at h
    obtain ⟨⟨-, hlimit⟩, -⟩ := h
    exact hlimit
  · cases h

/-- A skip that fills owes bits and holds none (R86). -/
theorem progressWf_skipping {a : Acc} {cmd : Instr} {owed : Nat} (h : ProgressWf a cmd (.skipping owed) = true) :
    0 < owed ∧ a.remaining = 0 := by
  cases cmd with
  | skip n =>
    simp only [ProgressWf, Bool.and_eq_true, decide_eq_true_eq] at h
    obtain ⟨⟨howed, -⟩, hempty⟩ := h
    exact ⟨howed, hempty⟩
  | _ => cases h

/-- Only a byte read passes bytes through (R107). -/
theorem progressWf_passing_command {a : Acc} {cmd : Instr} {out : List Byte} {want : Nat}
    (h : ProgressWf a cmd (.passing out want) = true) : ∃ n, cmd = .readBytes n := by
  cases cmd with
  | readBytes n => exact ⟨n, rfl⟩
  | _ => cases h

/-- A run keeps a width-typed command where `WidthRun` says. -/
theorem widthRun_runOn {cmd : Instr} {s u t : State} (hu : BlockInv u) (h : WidthRun cmd s u) (hr : runOn u = .next t) :
    WidthRun cmd s t :=
  (engineRun_induction (P := fun u => BlockInv u ∧ WidthRun cmd s u)
    (fun _ _ hu hstep => ⟨blockInv_engineStep hu.1 hstep, widthRun_engineStep hu.1 hu.2 hstep⟩) _ ⟨hu, h⟩ hr).2

/-- A width-typed command that stands at its fill and for which the sink holds enough ends after one pull (R80, R90). -/
theorem runOn_fill_ends {cmd : Instr} {got : Nat} {u : State} (hinv : BlockInv u)
    (he : u.engine = .busy cmd (.filling got)) (ht : u.turns = []) (hm : u.cfg.mode = .buffered)
    (henough : count cmd ≤ u.sinkBits) : ∃ t, runOn u = .next t ∧ t.engine = .idle := by
  have hp := hinv.progressWf_of_busy he
  obtain ⟨h64, hshort⟩ := progressWf_filling hp
  have hfull := Acc.cap_enough h64 (progressWf_filling_limit hp) hshort
  have hcap : u.acc.cap ≠ 0 := request_ne_zero hinv (.inl he)
  simp only [State.sinkBits] at henough
  have hs : u.sink ≠ [] := by
    intro h0
    simp only [h0, List.length_nil] at henough
    omega
  have hheld : count cmd ≤ (sinkFilled u).acc.remaining := by
    simp only [sinkFilled, Acc.absorb_remaining, List.length_take]
    omega
  have hpull := pullStep_filling (cmd := cmd) (got := got) (e := u.engine) hcap hs
  refine ⟨finishWidth cmd (sinkFilled u), ?_, finishWidth_idle _ _⟩
  refine engineRun_busy (fuel := _ + 3) he ht hcap ?_
  rw [if_neg (by simp [hm]), hpull, peekLoop_held hheld]
  exact engineRun_idle (finishWidth_idle cmd _) _

/-- A skip that stands at its fill and for which the sink holds enough ends, by as many pulls as it takes: it moves the
cursor by what it owes, and answers the value 0 (R86). -/
theorem runOn_skip_ends {cmd : Instr} {owed : Nat} {u : State} (hinv : BlockInv u)
    (he : u.engine = .busy cmd (.skipping owed)) (ht : u.turns = []) (hm : u.cfg.mode = .buffered)
    (henough : owed ≤ 8 * u.sink.length) :
    ∃ t, runOn u = .next t ∧ t.engine = .idle ∧ t.responses = u.responses ++ [⟨.ok, 0, []⟩] ∧
      t.cursor = u.cursor + owed := by
  obtain ⟨howed, hempty⟩ := progressWf_skipping (hinv.progressWf_of_busy he)
  obtain ⟨j, w, hskips, -, hstock⟩ := exists_skips (s := u) (owed := owed) (fun hd => by cases hm.symm.trans hd)
    (by rw [stock, supply_buffered hm]; omega)
  have hstart : skipLoop cmd owed u = u := by
    rw [skipLoop_short (by omega), hempty, Acc.drop_zero, Nat.sub_zero, ← he]
  have hfuel : j ≤ engineFuel u := by
    have := hskips.fills_le
    rw [engineFuel_eq]
    omega
  have hrun := engineRun_skips (cmd := cmd) hskips ht 0 (engineFuel u - j)
  rw [Nat.sub_add_cancel hfuel, Nat.add_zero, hstart, skipLoop_held (Nat.zero_le _), Acc.drop_zero,
    engineRun_idle (s := finish 0 w) rfl] at hrun
  refine ⟨finish 0 w, hrun, rfl, by rw [finish_responses, hskips.frame], ?_⟩
  have hsupply := congrArg List.length (runOn_frame hrun).supply_eq
  have hheld : w.acc.remaining ≤ 8 * w.taken.length := (blockInv_runOn hinv hrun).stream.1
  change (w.taken ++ supply w).length = _ at hsupply
  change 8 * w.taken.length - w.acc.remaining = 8 * u.taken.length - u.acc.remaining + owed
  simp only [stock, List.length_append] at hstock hsupply
  omega

/-- A byte read that stands at its pass-through and finds bytes in the sink ends with them (R107). -/
theorem runOn_pass_ends {cmd : Instr} {out : List Byte} {want : Nat} {u : State} (hinv : BlockInv u)
    (he : u.engine = .busy cmd (.passing out want)) (ht : u.turns = []) (hm : u.cfg.mode = .buffered)
    (hs : u.sink ≠ []) :
    ∃ t, runOn u = .next t ∧ t.engine = .idle ∧ t.responses = u.responses ++ [⟨.ok, 0, out ++ u.sink.take want⟩] ∧
      t.cursor = u.cursor + 8 * (u.sink.take want).length := by
  obtain ⟨n, rfl⟩ := progressWf_passing_command (hinv.progressWf_of_busy he)
  obtain ⟨-, hempty⟩ := progressWf_passing (hinv.progressWf_of_busy he)
  refine ⟨respond ⟨.ok, 0, out ++ u.sink.take want⟩ (pulled want u), ?_, rfl, rfl, ?_⟩
  · refine engineRun_busy (fuel := _ + 3) he ht (request_ne_zero hinv (.inl he)) ?_
    rw [if_neg (by simp [hm]), pullStep_nonempty hs, deliver_passing]
    exact engineRun_idle rfl _
  · have htaken : (pulled want u).taken = u.taken ++ u.sink.take want := taken_record _ _ _ _
    change 8 * (pulled want u).taken.length - u.acc.remaining = 8 * u.taken.length - u.acc.remaining + _
    rw [htaken, hempty, List.length_append]
    omega

/-- Settles O44: the step is the take and the run from there, which ends since the sink holds enough. A fill's answer is
then the stream's at the cursor; a skip and a byte read give theirs in full. -/
theorem wokenCommandCompletes : Obligations.WokenCommandCompletes := by
  intro s cmd p hinv he hw ht henough
  obtain ⟨hm, -⟩ := hinv.of_waiting he
  have hstep := step_woken he hw ht
  have hinv' : BlockInv (woken cmd p s) := blockInv_engineStep hinv (engineStep_woken he hw)
  have hwake {t : State} (hrun : runOn (woken cmd p s) = .next t) : t.wake = false :=
    Bool.eq_false_iff.mpr fun h => Bool.false_ne_true (((runOn_frame hrun).buffered hm).2.2 h)
  cases p with
  | filling got =>
    obtain ⟨t, hrun, hidle⟩ := runOn_fill_ends hinv' rfl ht hm henough
    obtain ⟨v, d, hresp⟩ := answers_ok_of_runOn (by exact hm) (by simp [woken]) hrun hidle
    refine ⟨t, v, d, hstep.trans hrun, hidle, hwake hrun, hresp, ?_⟩
    cases widthRun_runOn (s := s) hinv' (.filling got (.inl rfl) rfl rfl) hrun with
    | filling _ hbusy => simp [hidle] at hbusy
    | answered r _ hr ha =>
      obtain rfl : r = ⟨.ok, v, d⟩ := by simpa [woken] using hr.symm.trans hresp
      exact ⟨by simpa using ha.cursor, ha.value rfl⟩
  | skipping owed =>
    obtain ⟨t, hrun, hidle, hresp, hcursor⟩ := runOn_skip_ends hinv' rfl ht hm henough
    exact ⟨t, 0, [], hstep.trans hrun, hidle, hwake hrun, hresp, hcursor, rfl⟩
  | passing out want =>
    obtain ⟨t, hrun, hidle, hresp, hcursor⟩ := runOn_pass_ends hinv' rfl ht hm henough
    refine ⟨t, 0, _, hstep.trans hrun, hidle, hwake hrun, hresp, ?_, rfl, rfl⟩
    simp only [List.length_append, Nat.add_sub_cancel_left]
    exact hcursor

end Sys2Proof.Machine
end

section
/-! What answers `WidthOverflow` (spec/60_exceptions.md R126, R136). -/

namespace Sys2Proof.Machine

/-- Only `WRITE` comes by the producer port, and it gives no response (R65, R115). -/
theorem responses_of_not_command {i : Instr} {s t : State} (hp : i.port ≠ .command) (h : exec i s = .next t) :
    t.responses = s.responses := by
  cases i with
  | write data =>
    obtain ⟨-, -, -, rfl⟩ := execWrite_next h
    split <;> rfl
  | _ => exact absurd rfl hp

/-- Every response that an instruction adds is a good answer or reports a contract error with its cause (R93, R125). -/
theorem answer_of_mem {i : Instr} {s t : State} {rs : List Response} {r : Response} (h : exec i s = .next t)
    (hrs : t.responses = s.responses ++ rs) (hr : r ∈ rs) : GoodAnswer s.cfg.mode r ∨ ContractError i s r := by
  have hadded : t.responses ≠ s.responses := fun hsilent =>
    List.ne_nil_of_mem hr (List.append_right_eq_self.mp (hrs.symm.trans hsilent))
  have hp : i.port = .command := by_contra fun hp => hadded (responses_of_not_command hp h)
  rcases exec_answer hp (exec_next hp h).2 with hsilent | ⟨q, hq, hcause⟩
  · exact absurd hsilent hadded
  · obtain rfl : rs = [q] := List.append_cancel_left (hrs.symm.trans hq)
    rwa [List.mem_singleton.mp hr]

/-- R126: a width-typed command with `n` outside `[1, w]` reports it, whatever else would be wrong with it (R133). -/
theorem exec_width_outOfRange {n : Word} {w : Nat} {cmd : Instr} (hf : (w, cmd) ∈ widthForms n) {s : State}
    (he : s.engine = .idle) (hn : n.toNat = 0 ∨ w < n.toNat) : exec cmd s = .next (raise .widthOverflow s) := by
  have hover : widthOverflow w (count cmd) = true := (widthOverflow_iff _ _).mpr (count_of_widthForms hf ▸ hn)
  have hstart : widthStart cmd w s = raise .widthOverflow s := if_pos hover
  rw [exec_width hf he, hstart, runOn_idle rfl]

/-- Settles O9: the range is the first check of the local start, and nothing else reports `WidthOverflow`. -/
theorem widthOverflowChangesNothing : Obligations.WidthOverflowChangesNothing := by
  refine ⟨fun s n w cmd hf he hn => ?_, fun i s t rs r h hrs hr hst => ?_⟩
  · rw [exec_width_outOfRange hf he hn, raise_of_idle he]
  · rcases answer_of_mem h hrs hr with hgood | ⟨-, -, hcause⟩ | ⟨hao, -⟩
    · exact absurd hst hgood.wo
    · exact hcause
    · simp [hst] at hao

end Sys2Proof.Machine
end

section
/-! The reset input (spec/70_reset_and_hazards.md R140 to R142). -/

namespace Sys2Proof.Machine

/-- R142: with the engine busy in `DIRECT` the source is the one after its ignored answer to the pending request. -/
theorem sourceAfterReset_of_in_flight {s : State} {cmd : Instr} {p : Progress} (hm : s.cfg.mode = .direct)
    (he : s.engine = .busy cmd p) : sourceAfterReset s = (s.source.answer (request s.acc p)).2.2 := by
  simp [sourceAfterReset, hm, he]

/-- R142: with no request in flight the source is as it was. -/
theorem sourceAfterReset_of_not_in_flight {s : State}
    (h : s.cfg.mode = .buffered ∨ ∀ cmd p, s.engine ≠ .busy cmd p) : sourceAfterReset s = s.source := by
  unfold sourceAfterReset
  split
  · next cmd p hm he =>
    rcases h with hb | hn
    · simp [hm] at hb
    · exact absurd he (hn cmd p)
  · rfl
  · rfl
  · rfl

/-- A reset loses bytes from the head of the source's stream only: those of the ignored answer, if there is one. -/
theorem stream_eq_append_sourceAfterReset (s : State) :
    ∃ lost, s.source.stream = lost ++ (sourceAfterReset s).stream := by
  unfold sourceAfterReset
  split
  · exact ⟨_, (Source.answer_append_stream s.source _).symm⟩
  all_goals exact ⟨[], rfl⟩

/-- The reset input's step is the reset of the block, its turn used up. -/
theorem step_reset {s : State} (hn : nextTurn s = .reset) : step s = .next (resetInput (popTurn s)) := by
  rw [step, hn, turnStep]

/-- Settles O48: the step is the reset, and the source is `sourceAfterReset`, by whether a request is in flight. -/
theorem resetInputResetsTheBlock : Obligations.ResetInputResetsTheBlock := by
  intro s rest ht
  have hn : nextTurn s = .reset := by simp [nextTurn, ht]
  refine ⟨sourceAfterReset s, ?_, fun cmd p hm he => ?_, sourceAfterReset_of_not_in_flight,
    stream_eq_append_sourceAfterReset s⟩
  · rw [step_reset hn]
    simp [resetInput, popTurn, ht, sourceAfterReset]
  · rw [sourceAfterReset_of_in_flight hm he]
    cases p <;> rfl

end Sys2Proof.Machine
end
